-- ==== Sys2Proof/Word.lean ====
section
/-! DEFINITION. The word types of the block (spec/00_scope.md R5, spec/30_encoding.md R55). All values are unsigned. -/

namespace Sys2Proof

/-- `WORD`: the 16-bit unit of summation, and the width of every numbered register (R5, R11). -/
abbrev Word := BitVec 16

/-- `BYTE`: a payload byte or an IP octet (R5). -/
abbrev Byte := BitVec 8

/-- `CMDW`: one command word (R5, R55). -/
abbrev CmdWord := BitVec 24

/-- The `RN` field of a command word: a register number 0 to 15 (R41, R57). -/
abbrev RegNum := BitVec 4

end Sys2Proof
end

