-- ==== Sys2Proof/Config.lean ====
section
/-! DEFINITION. The one implementation parameter, `ACCW` (spec/00_scope.md R4). The spec leaves no value free, so there is no
opaque constant here. -/

namespace Sys2Proof

/-- What an implementation fixes: the width in bits of the accumulator, 17 to 32 inclusive (R4).
A width outside that range cannot be built, which is how the model refuses it (spec/93_implementation_defined.md U5).
DESIGN CHOICE (log 1): the parameter travels in the state, and no step changes it. -/
structure Config where
  accw : Nat
  accw_ge : 17 ≤ accw
  accw_le : accw ≤ 32
deriving DecidableEq, Repr

/-- "The default, and the value every test vector uses unless it says otherwise, is 32" (R4). -/
def Config.standard : Config := ⟨32, by decide, by decide⟩

end Sys2Proof
end

