-- ==== Sys2Proof/Machine/State.lean ====
section
/-! DEFINITION. The state (spec/10_state.md R10): the block's fourteen items, and beside them what the spec makes a parameter of
a run (R10, R12): the accumulator width and the events the host has still to deliver. -/

namespace Sys2Proof.Machine

/-- `CTRL`: the three implemented mode bits; `false` is legacy, `true` is corrected (R21, R22). -/
structure Ctrl where
  ippad : Bool
  cplall : Bool
  foldloop : Bool
deriving DecidableEq, Repr

/-- The three faults of the block (R125). They are bits of `STATUS`, not stops of the machine. -/
inductive FaultBit where
  /-- `F_OVF`, code 0: the exact sum does not fit in `ACCW` bits -/
  | ovf
  /-- `F_ODD`, code 1: `FIN` with a payload byte pending -/
  | odd
  /-- `F_ILL`, code 2: the word is not a command, or names a register it may not -/
  | ill
deriving DecidableEq, Repr

/-- The complete state of the block: the fourteen items of R10 and nothing else. -/
structure Block where
  /-- source port, number 0 (R13) -/
  sport : Word
  /-- destination port, number 1 (R14) -/
  dport : Word
  /-- length, number 2 (R15) -/
  len : Word
  /-- source IP, octets 1 and 2, unpacked, number 3 (R16) -/
  sip0 : Word
  /-- source IP, octets 3 and 4, number 4 (R17) -/
  sip1 : Word
  /-- destination IP, octets 1 and 2, number 5 (R18) -/
  dip0 : Word
  /-- destination IP, octets 3 and 4, number 6 (R19) -/
  dip1 : Word
  /-- mode bits, number 7 (R21) -/
  ctrl : Ctrl
  /-- the running sum, `ACCW` bits, zero-extended to the widest legal `ACCW` (R29; DESIGN CHOICE, log 2) -/
  acc : BitVec 32
  /-- pending first payload byte, number 12 (R31) -/
  pkb : Byte
  /-- a first payload byte is pending (R24) -/
  pkv : Bool
  /-- result of the last completed `FIN`, number 11 (R32) -/
  res : Word
  /-- a `FIN` has completed since the last `INIT` or reset (R25) -/
  done : Bool
  /-- the last completed `FIN` took the fold branch (R26) -/
  folded : Bool
  /-- the last completed `FIN` applied the complement (R27) -/
  cpld : Bool
  /-- fault code 0 (R28) -/
  fOvf : Bool
  /-- fault code 1 (R28) -/
  fOdd : Bool
  /-- fault code 2 (R28) -/
  fIll : Bool
  /-- value of the last `RD` that raised no fault (R33) -/
  rdata : Word
deriving DecidableEq, Repr

/-- What makes the block take a step: an accepted command word, or reset (spec/00_scope.md R6). -/
inductive Event where
  | cmd (c : CmdWord)
  | rst
deriving DecidableEq, Repr

/-- The machine: the block, the parameter `ACCW` it was built with (log 1), and the events the host will deliver, next one first
(log 3). The last two are the environment's: no command reads or changes them (R12). -/
structure State where
  cfg : Config
  block : Block
  inbox : List Event
deriving DecidableEq, Repr

/-- Reasons for which the machine stops. There are none: `step` of the spec "never fails to return a state" (spec/00_scope.md
R7), and a fault of the block is a bit of `STATUS` in a next state (log 7, safe). -/
inductive Fault
deriving DecidableEq, Repr

/-- Reasons for which the model gives no meaning. -/
inductive Refusal where
  /-- Raised by `exec` for an instruction that has no meaning yet, by its mnemonic (safe: the model stops). No arm raises it. -/
  | notModelled (mnemonic : String)
deriving DecidableEq, Repr

/-- The reset state of the block: every item zero (spec/70_reset_and_hazards.md R145). -/
def Block.reset : Block where
  sport := 0
  dport := 0
  len := 0
  sip0 := 0
  sip1 := 0
  dip0 := 0
  dip1 := 0
  ctrl := ⟨false, false, false⟩
  acc := 0
  pkb := 0
  pkv := false
  res := 0
  done := false
  folded := false
  cpld := false
  fOvf := false
  fOdd := false
  fIll := false
  rdata := 0

/-- The machine right after reset: the reset block (R145), the default `ACCW` (R4, log 1), nothing presented yet (log 3). -/
def State.reset : State where
  cfg := Config.standard
  block := Block.reset
  inbox := []

end Sys2Proof.Machine
end

