-- ==== Sys2Proof/Machine/Flags.lean ====
section
/-! DEFINITION. The flag computations: `FAULT`, `STATUS` (spec/10_state.md R23) and the flags a `FIN` writes
(spec/42_fold_complement.md R100, R105, R106). -/

namespace Sys2Proof.Machine

/-- `FAULT = F_OVF | F_ODD | F_ILL` (R23, R128). -/
def Block.fault (b : Block) : Bool := b.fOvf || b.fOdd || b.fIll

/-- `STATUS`: `{0b00000, F_ILL, F_ODD, F_OVF, 0b0000, CPLD, FOLDED, DONE, PKV}` (R23). -/
def Block.status (b : Block) : Word :=
  0#5 ++ BitVec.ofBool b.fIll ++ BitVec.ofBool b.fOdd ++ BitVec.ofBool b.fOvf ++ 0#4 ++
    BitVec.ofBool b.cpld ++ BitVec.ofBool b.folded ++ BitVec.ofBool b.done ++ BitVec.ofBool b.pkv

/-- `FOLDED` of a `FIN` on the sum `s`: the fold branch is taken exactly when `s > 0xFFFF` (R100). -/
def finFolded (s : Nat) : Bool := decide (0xFFFF < s)

/-- `CPLD` of a `FIN` on the sum `s`: complemented on the fold branch, and on the other one when `CTRL.CPLALL` is set (R105). -/
def finCpld (s : Nat) (cplall : Bool) : Bool := finFolded s || cplall

end Sys2Proof.Machine
end

