-- ==== Sys2Proof/Syntax.lean ====
section
/-! DEFINITION. The commands of the block (spec/30_encoding.md R55 to R59), what a command word can decode to, and the shape
of a row of the opcode map. -/

namespace Sys2Proof

/-- The nine commands, one constructor for each row of the opcode map (R59), with the operands of R57. A register number is
any of the sixteen: whether it may be written or read is the command's own affair (R58, R62). -/
inductive Instr where
  /-- `NOP` (R115) -/
  | nop
  /-- `INIT` (R116) -/
  | init
  /-- `WR reg, v` (R117) -/
  | wr (n : RegNum) (v : Word)
  /-- `RD reg` (R118) -/
  | rd (n : RegNum)
  /-- `ADDW w` (R92) -/
  | addw (w : Word)
  /-- `PKIP o_first, o_second` (R80) -/
  | pkip (oFirst oSecond : Byte)
  /-- `PUSHB b` (R77) -/
  | pushb (b : Byte)
  /-- `HDR` (R93) -/
  | hdr
  /-- `FIN` (R106) -/
  | fin
deriving DecidableEq, Repr

/-- Why a word is `Illegal`. The block records no such reason (R125); the two names only say which rule of the spec makes the
word illegal (DESIGN CHOICE, log 11). -/
inductive IllegalWord where
  /-- the opcode is one of 0x9 to 0xF (R60) -/
  | reservedOpcode
  /-- a field that the format requires to be zero is not (R61) -/
  | reservedField
deriving DecidableEq, Repr

/-- What the decoder answers: a command, or `Illegal` (R58). -/
inductive Decoded where
  | command (i : Instr)
  | illegal (why : IllegalWord)
deriving DecidableEq, Repr

/-- The command a word decodes to, if it decodes to one. -/
def Decoded.instr? : Decoded → Option Instr
  | .command i => some i
  | .illegal _ => none

/-- One row of the opcode map: a word `c` selects the command when `c &&& mask = pattern` (R59). -/
structure OpcodeRow where
  mnemonic : String
  pattern : CmdWord
  mask : CmdWord
deriving DecidableEq, Repr

end Sys2Proof
end

