-- ==== Sys2Proof/Decode.lean ====
section
/-! DEFINITION. The decoder, total on 24-bit words (spec/30_encoding.md R58, R60, R61), the encoder (R56, R65), and the opcode map
as rows (R59). A command word has no byte order (spec/20_memory.md R46): it is one value on a 24-bit port. -/

namespace Sys2Proof

/-- `OP`, bits 23:20 (R55). -/
def opField (c : CmdWord) : BitVec 4 := c.extractLsb' 20 4

/-- `RN`, bits 19:16 (R55). -/
def rnField (c : CmdWord) : RegNum := c.extractLsb' 16 4

/-- `IMM`, bits 15:0 (R55). -/
def immField (c : CmdWord) : Word := c.extractLsb' 0 16

/-- Bits 15:8 of a word: the first octet of a pair (R45, R57). -/
def highByte (w : Word) : Byte := w.extractLsb' 8 8

/-- Bits 7:0 of a word: the second octet of a pair, or a payload byte (R45, R57). -/
def lowByte (w : Word) : Byte := w.extractLsb' 0 8

/-- A command whose must-be-zero fields are checked by `zeros` (R61). -/
def whenZero (zeros : Bool) (i : Instr) : Decoded :=
  if zeros then .command i else .illegal .reservedField

/-- `decode` of R58. It looks at the word only. -/
def decode (c : CmdWord) : Decoded :=
  let rn := rnField c
  let imm := immField c
  match opField c with
  | 0x0#4 => whenZero (rn == 0#4 && imm == 0#16) .nop
  | 0x1#4 => whenZero (rn == 0#4 && imm == 0#16) .init
  | 0x2#4 => .command (.wr rn imm)
  | 0x3#4 => whenZero (imm == 0#16) (.rd rn)
  | 0x4#4 => whenZero (rn == 0#4) (.addw imm)
  | 0x5#4 => whenZero (rn == 0#4) (.pkip (highByte imm) (lowByte imm))
  | 0x6#4 => whenZero (rn == 0#4 && highByte imm == 0#8) (.pushb (lowByte imm))
  | 0x7#4 => whenZero (rn == 0#4 && imm == 0#16) .hdr
  | 0x8#4 => whenZero (rn == 0#4 && imm == 0#16) .fin
  | _ => .illegal .reservedOpcode

/-- A command word from its three fields: `{OP, RN, IMM}` (R55). -/
def wordOf (op : BitVec 4) (rn : RegNum) (imm : Word) : CmdWord := op ++ rn ++ imm

/-- The command word of a command, in its format (R56). -/
def encode : Instr → CmdWord
  | .nop => wordOf 0x0#4 0#4 0#16
  | .init => wordOf 0x1#4 0#4 0#16
  | .wr n v => wordOf 0x2#4 n v
  | .rd n => wordOf 0x3#4 n 0#16
  | .addw w => wordOf 0x4#4 0#4 w
  | .pkip o1 o2 => wordOf 0x5#4 0#4 (o1 ++ o2)
  | .pushb b => wordOf 0x6#4 0#4 (0#8 ++ b)
  | .hdr => wordOf 0x7#4 0#4 0#16
  | .fin => wordOf 0x8#4 0#4 0#16

/-- The row of the opcode map that a command belongs to (R59). -/
def Instr.row : Instr → OpcodeRow
  | .nop => ⟨"NOP", 0x000000, 0xFFFFFF⟩
  | .init => ⟨"INIT", 0x100000, 0xFFFFFF⟩
  | .wr _ _ => ⟨"WR", 0x200000, 0xF00000⟩
  | .rd _ => ⟨"RD", 0x300000, 0xF0FFFF⟩
  | .addw _ => ⟨"ADDW", 0x400000, 0xFF0000⟩
  | .pkip _ _ => ⟨"PKIP", 0x500000, 0xFF0000⟩
  | .pushb _ => ⟨"PUSHB", 0x600000, 0xFFFF00⟩
  | .hdr => ⟨"HDR", 0x700000, 0xFFFFFF⟩
  | .fin => ⟨"FIN", 0x800000, 0xFFFFFF⟩

/-- A word selects a row (R59). -/
def OpcodeRow.selects (r : OpcodeRow) (c : CmdWord) : Bool := c &&& r.mask == r.pattern

/-- The instruction the decoder reads from an instruction whose bits are `w`, bit 0 the least significant bit of the one command
word. A command is one 24-bit word (R55), so bits from `nbits` on are zero and no longer instruction exists (log 14). -/
def decodeTableWord (nbits w : Nat) : Option Instr :=
  if nbits ≤ 24 then (decode (BitVec.ofNat 24 (w % 2 ^ nbits))).instr? else none

end Sys2Proof
end

