-- ==== Sys2Proof/Machine/Operands.lean ====
section
/-! DEFINITION. The operand forms: register numbers (spec/10_state.md R11), the two packers (spec/40_packer.md R75, R78), the
slices of `ACC` (R30), the header addends (spec/41_accumulate.md R93) and the exact addition (R90). -/

namespace Sys2Proof.Machine

/-- The thirteen registers that have a number (R11). -/
inductive Reg where
  | sport | dport | len | sip0 | sip1 | dip0 | dip1 | ctrl | status | accl | acch | res | pkb
deriving DecidableEq, Repr

/-- The register a number names; 13, 14 and 15 name nothing (R11, R41). -/
def regOfNumber (n : RegNum) : Option Reg :=
  match n with
  | 0#4 => some .sport
  | 1#4 => some .dport
  | 2#4 => some .len
  | 3#4 => some .sip0
  | 4#4 => some .sip1
  | 5#4 => some .dip0
  | 6#4 => some .dip1
  | 7#4 => some .ctrl
  | 8#4 => some .status
  | 9#4 => some .accl
  | 10#4 => some .acch
  | 11#4 => some .res
  | 12#4 => some .pkb
  | _ => none

/-- The protocol constant, 17 (spec/00_scope.md R5). -/
def proto : Word := 0x0011

/-- `pack_pl`: the first byte is the high half (R44, R75). -/
def packPl (bFirst bSecond : Byte) : Word := bFirst ++ bSecond

/-- `pack_ip`: with `pad` false and a second octet below 16, the second octet occupies one hex digit (R78; log 12). -/
def packIp (oFirst oSecond : Byte) (pad : Bool) : Word :=
  if pad = true ∨ 16 ≤ oSecond.toNat then
    (oFirst.setWidth 16 <<< 8) + oSecond.setWidth 16
  else
    (oFirst.setWidth 16 <<< 4) + oSecond.setWidth 16

/-- `pack_ip` of the octet pair in a field register (R45, R93). -/
def packPair (w : Word) (pad : Bool) : Word := packIp (highByte w) (lowByte w) pad

/-- `acc_add`: exact, nothing masked, folded or wrapped (R90). -/
def accAdd (a : Nat) (w : Word) : Nat := a + w.toNat

/-- `2^ACCW`, the first value `ACC` cannot hold (R4, R91). -/
def accLimit (cfg : Config) : Nat := 2 ^ cfg.accw

/-- `ACCL`: `ACC[15:0]` (R30). -/
def accLow (acc : BitVec 32) : Word := acc.extractLsb' 0 16

/-- `ACCH`: `zext_16(ACC[ACCW-1:16])`; bits from `ACCW` on are not bits of `ACC` (R30; log 6). -/
def accHigh (cfg : Config) (acc : BitVec 32) : Word :=
  BitVec.ofNat 16 ((acc.toNat % accLimit cfg) / 2 ^ 16)

/-- The value `RD CTRL` returns: `{0b0000000000000, FOLDLOOP, CPLALL, IPPAD}` (R21). -/
def Ctrl.toWord (c : Ctrl) : Word :=
  0#13 ++ BitVec.ofBool c.foldloop ++ BitVec.ofBool c.cplall ++ BitVec.ofBool c.ippad

/-- The mode bits a value written to `CTRL` selects, if its reserved bits are zero (R21, R43, R63). -/
def Ctrl.ofWord (v : Word) : Option Ctrl :=
  if v.extractLsb' 3 13 = 0#13 then
    some ⟨v.getLsbD 0, v.getLsbD 1, v.getLsbD 2⟩
  else
    none

/-- The nine addends of `HDR` in the document's order: ports, length twice, protocol constant, then for each IP word position
the source before the destination (R93, R94). -/
def hdrAddends (b : Block) : List Word :=
  [b.sport, b.dport, b.len, b.len, proto,
   packPair b.sip0 b.ctrl.ippad, packPair b.dip0 b.ctrl.ippad,
   packPair b.sip1 b.ctrl.ippad, packPair b.dip1 b.ctrl.ippad]

end Sys2Proof.Machine
end

