-- ==== Sys2Proof/Machine/Ops.lean ====
section
/-! DEFINITION. The shared operations: named updates of the block, `RegRead` and `RegWrite` (spec/20_memory.md R42, R43), the one
accumulation every adding command uses (spec/41_accumulate.md R91), raising a fault and the return from one
(spec/60_exceptions.md R126, R136), the fault gate (R128), reset, and taking the next event. -/

namespace Sys2Proof.Machine

/-! ### Named updates -/

def State.setBlock (s : State) (b : Block) : State := { s with block := b }

def State.setInbox (s : State) (es : List Event) : State := { s with inbox := es }

def Block.setAcc (b : Block) (a : BitVec 32) : Block := { b with acc := a }

def Block.setPacker (b : Block) (pkb : Byte) (pkv : Bool) : Block := { b with pkb := pkb, pkv := pkv }

def Block.setCtrl (b : Block) (c : Ctrl) : Block := { b with ctrl := c }

def Block.setRdata (b : Block) (v : Word) : Block := { b with rdata := v }

/-- What a completed `FIN` writes: `RES`, `FOLDED`, `CPLD`, and `DONE = 1` (R106). -/
def Block.setResult (b : Block) (r : Word) (folded cpld : Bool) : Block :=
  { b with res := r, folded := folded, cpld := cpld, done := true }

/-! ### Faults: entry and return -/

/-- Fault entry: the fault bit becomes 1 and nothing else changes; nothing is saved and control goes nowhere (R126, R135). -/
def Block.raise (b : Block) (f : FaultBit) : Block :=
  match f with
  | .ovf => { b with fOvf := true }
  | .odd => { b with fOdd := true }
  | .ill => { b with fIll := true }

/-- What `INIT` writes: everything a run produces, the fault bits among it. It is the return from a fault (R116, R136). -/
def Block.startRun (b : Block) : Block :=
  { b with
    acc := 0, pkb := 0, pkv := false, res := 0, done := false, folded := false, cpld := false,
    fOvf := false, fOdd := false, fIll := false }

/-- What a command that may raise a fault leaves: its own writes, or the fault bit alone (R126). -/
def Block.settle (b : Block) (act : Except FaultBit Block) : Block :=
  match act with
  | .ok b' => b'
  | .error f => b.raise f

/-- The fault gate for every command but `NOP`, `INIT` and a legal `RD`: with a fault pending it has no effect (R128). -/
def State.attempt (s : State) (act : Except FaultBit Block) : Host.Outcome State Fault Refusal :=
  if s.block.fault then .next s else .next (s.setBlock (s.block.settle act))

/-- An `Illegal` word: `F_ILL` with no fault pending, nothing at all with one (R58, R128, R131). -/
def State.illegalWord (s : State) : Host.Outcome State Fault Refusal := s.attempt (.error .ill)

/-! ### Registers -/

/-- The value of a register; reading changes nothing (R42). -/
def Block.regRead (cfg : Config) (b : Block) (r : Reg) : Word :=
  match r with
  | .sport => b.sport
  | .dport => b.dport
  | .len => b.len
  | .sip0 => b.sip0
  | .sip1 => b.sip1
  | .dip0 => b.dip0
  | .dip1 => b.dip1
  | .ctrl => b.ctrl.toWord
  | .status => b.status
  | .accl => accLow b.acc
  | .acch => accHigh cfg b.acc
  | .res => b.res
  | .pkb => b.pkb.setWidth 16

/-- Writing a register, or failing: `STATUS`, `ACCL`, `ACCH`, `RES`, `PKB` are read only, and `CTRL` takes no reserved bit (R43). -/
def Block.regWrite (b : Block) (r : Reg) (v : Word) : Option Block :=
  match r with
  | .sport => some { b with sport := v }
  | .dport => some { b with dport := v }
  | .len => some { b with len := v }
  | .sip0 => some { b with sip0 := v }
  | .sip1 => some { b with sip1 := v }
  | .dip0 => some { b with dip0 := v }
  | .dip1 => some { b with dip1 := v }
  | .ctrl => (Ctrl.ofWord v).map b.setCtrl
  | .status => none
  | .accl => none
  | .acch => none
  | .res => none
  | .pkb => none

/-- `RegRead(n)` (R42). -/
def Block.readNumber (cfg : Config) (b : Block) (n : RegNum) : Option Word :=
  (regOfNumber n).map (b.regRead cfg)

/-- `RegWrite(n, v)` (R43). -/
def Block.writeNumber (b : Block) (n : RegNum) (v : Word) : Option Block :=
  match regOfNumber n with
  | some r => b.regWrite r v
  | none => none

/-! ### Accumulating -/

/-- Adding words to `ACC`, exactly and all at once: a total of `2^ACCW` or more raises `F_OVF` and adds none of them (R90, R91). -/
def Block.accumulate (cfg : Config) (b : Block) (ws : List Word) : Except FaultBit Block :=
  let t := ws.foldl accAdd b.acc.toNat
  if accLimit cfg ≤ t then .error .ovf else .ok (b.setAcc (BitVec.ofNat 32 t))

/-! ### Reset and events -/

/-- Reset: the block takes the reset state, whatever it held (spec/70_reset_and_hazards.md R145, R146; log 5). -/
def State.takeReset (s : State) : State := s.setBlock Block.reset

/-- The next event the host delivers, and the state in which it is performed (spec/20_memory.md R51; log 3). -/
def State.nextEvent (s : State) : Option (Event × State) :=
  match s.inbox with
  | [] => none
  | e :: es => some (e, s.setInbox es)

end Sys2Proof.Machine
end

