-- ==== Sys2Proof/Machine/Accumulate.lean ====
section
/-! DEFINITION. The accumulator commands `ADDW` and `HDR` (spec/41_accumulate.md R92, R93). -/

namespace Sys2Proof.Machine

/-- `ADDW w`: add one 16-bit word (R92). -/
def execAddw (w : Word) (s : State) : Host.Outcome State Fault Refusal :=
  s.attempt (s.block.accumulate s.cfg [w])

/-- `HDR`: add the whole pseudo-header, or none of it (R93). -/
def execHdr (s : State) : Host.Outcome State Fault Refusal :=
  s.attempt (s.block.accumulate s.cfg (hdrAddends s.block))

end Sys2Proof.Machine
end

