-- ==== Sys2Proof/Machine/Control.lean ====
section
/-! DEFINITION. The control and register-access commands `NOP`, `INIT`, `WR`, `RD` (spec/43_control_register.md R115 to R118). -/

namespace Sys2Proof.Machine

/-- `NOP`: no state changes, with or without a fault pending (R115). -/
def execNop (s : State) : Host.Outcome State Fault Refusal := .next s

/-- `INIT`: start a new run; performed even while a fault is pending (R116). -/
def execInit (s : State) : Host.Outcome State Fault Refusal := .next (s.setBlock s.block.startRun)

/-- `WR reg, v`: a write that fails raises `F_ILL` (R117). -/
def execWr (n : RegNum) (v : Word) (s : State) : Host.Outcome State Fault Refusal :=
  match s.block.writeNumber n v with
  | some b => s.attempt (.ok b)
  | none => s.attempt (.error .ill)

/-- `RD reg`: a legal read is performed even while a fault is pending; a read that fails raises `F_ILL` (R118). -/
def execRd (n : RegNum) (s : State) : Host.Outcome State Fault Refusal :=
  match s.block.readNumber s.cfg n with
  | some v => .next (s.setBlock (s.block.setRdata v))
  | none => s.attempt (.error .ill)

end Sys2Proof.Machine
end

