-- ==== Sys2Proof/Machine/Fold.lean ====
section
/-! DEFINITION. The carry-folder, the complementer and `FIN` (spec/42_fold_complement.md R100 to R106). Sums are natural numbers
here, so that the fold is exact. -/

namespace Sys2Proof.Machine

/-- One fold pass: the low 16 bits plus everything above them, exactly (R101). -/
def fold1 (s : Nat) : Nat := s % 2 ^ 16 + s / 2 ^ 16

/-- The loop of R102, `while f > 0xFFFF do f = fold1(f)`, for at most `fuel` passes. -/
def foldWhile (fuel f : Nat) : Nat :=
  match fuel with
  | 0 => f
  | k + 1 => if 0xFFFF < f then foldWhile k (fold1 f) else f

/-- Passes allowed to the loop. With `ACCW <= 32` one is enough (R102); the second shows that the loop ends by itself (log 9). -/
def foldFuel : Nat := 2

/-- `fold(s, loop)`: one pass, and with `loop` further passes until the value fits (R102). -/
def fold (s : Nat) (loop : Bool) : Nat :=
  if loop then foldWhile foldFuel (fold1 s) else fold1 s

/-- `cpl18`: the 18-bit bus `T`, its two top bits dropped, the rest inverted (R103). -/
def cpl18 (f : Nat) : Word :=
  let t : BitVec 18 := BitVec.ofNat 18 f
  let u : Word := t.extractLsb' 0 16
  ~~~u

/-- The result of `FIN` on the sum `s` (R106). -/
def finResult (s : Nat) (c : Ctrl) : Word :=
  if finFolded s then cpl18 (fold s c.foldloop)
  else if c.cplall then cpl18 s
  else BitVec.ofNat 16 s

/-- What `FIN` does to the block: `F_ODD` with a byte pending, else the result and its flags; `ACC` is not written (R106, R108). -/
def Block.finish (b : Block) : Except FaultBit Block :=
  if b.pkv then .error .odd
  else
    .ok (b.setResult (finResult b.acc.toNat b.ctrl) (finFolded b.acc.toNat)
      (finCpld b.acc.toNat b.ctrl.cplall))

/-- `FIN`: fold, complement, deliver the result (R106). -/
def execFin (s : State) : Host.Outcome State Fault Refusal := s.attempt s.block.finish

end Sys2Proof.Machine
end

