-- ==== Sys2Proof/Machine/Packer.lean ====
section
/-! DEFINITION. The packer commands `PUSHB` and `PKIP` (spec/40_packer.md R77, R80). -/

namespace Sys2Proof.Machine

/-- The payload packer: a first byte is held, a second one is paired with it and the word added (R77). When the word does not fit,
the byte is lost and the pending byte stays. -/
def Block.pushByte (cfg : Config) (b : Block) (byte : Byte) : Except FaultBit Block :=
  if b.pkv then
    match b.accumulate cfg [packPl b.pkb byte] with
    | .ok b' => .ok (b'.setPacker 0 false)
    | .error f => .error f
  else
    .ok (b.setPacker byte true)

/-- `PUSHB b`: push one payload byte (R77). -/
def execPushb (byte : Byte) (s : State) : Host.Outcome State Fault Refusal :=
  s.attempt (s.block.pushByte s.cfg byte)

/-- `PKIP o_first, o_second`: pack two octets under `CTRL.IPPAD` and add the word (R80). -/
def execPkip (oFirst oSecond : Byte) (s : State) : Host.Outcome State Fault Refusal :=
  s.attempt (s.block.accumulate s.cfg [packIp oFirst oSecond s.block.ctrl.ippad])

end Sys2Proof.Machine
end

