-- ==== Sys2Proof/Machine/Dispatch.lean ====
section
/-! DEFINITION. One arm per command, each a direct call of its meaning. -/

namespace Sys2Proof.Machine

def exec (i : Instr) (s : State) : Host.Outcome State Fault Refusal :=
  match i with
  | .nop => Sys2Proof.Machine.execNop s
  | .init => Sys2Proof.Machine.execInit s
  | .wr n v => Sys2Proof.Machine.execWr n v s
  | .rd n => Sys2Proof.Machine.execRd n s
  | .addw w => Sys2Proof.Machine.execAddw w s
  | .pkip oFirst oSecond => Sys2Proof.Machine.execPkip oFirst oSecond s
  | .pushb b => Sys2Proof.Machine.execPushb b s
  | .hdr => Sys2Proof.Machine.execHdr s
  | .fin => Sys2Proof.Machine.execFin s

end Sys2Proof.Machine
end

