-- ==== Sys2Proof/Machine/Step.lean ====
section
/-! DEFINITION. One step of the machine (spec/00_scope.md R6, R7; spec/60_exceptions.md R128): the next event the host delivers is
performed. With nothing presented no state changes. -/

namespace Sys2Proof.Machine

/-- One step. An accepted word is decoded and performed by its command's rule, the fault gate included; an `Illegal` word raises
`F_ILL` unless a fault is pending; reset gives the reset state. With nothing presented the block holds its state (log 4). -/
def step (s : State) : Host.Outcome State Fault Refusal :=
  match s.nextEvent with
  | none => .next s
  | some (.rst, s') => .next s'.takeReset
  | some (.cmd c, s') =>
    match decode c with
    | .command i => exec i s'
    | .illegal _ => s'.illegalWord

/-- `s` with the word `w` as the next command the host presents, before whatever else it will present (log 3, log 14). -/
def State.withFetchWord (s : State) (nbits w : Nat) : State :=
  s.setInbox (.cmd (BitVec.ofNat 24 (w % 2 ^ nbits)) :: s.inbox)

end Sys2Proof.Machine
end

