-- ==== Sys2Proof/Machine/Ports.lean ====
section
/-! DEFINITION. The block's ports: the output views (spec/10_state.md R34) and the command handshake with reset
(spec/00_scope.md R9; spec/70_reset_and_hazards.md R146, R155), which turns samples of the ports at rising clock edges into the
events the machine performs. -/

namespace Sys2Proof.Machine

/-- The outputs that are views of state (R34). `cmd_ready` is not among them: its timing is the implementation's own (R155). -/
structure Outputs where
  res : Word
  status : Word
  done : Bool
  fault : Bool
  rdata : Word
deriving DecidableEq, Repr

/-- The output ports, driven continuously from the state (R34). -/
def Block.outputs (b : Block) : Outputs where
  res := b.res
  status := b.status
  done := b.done
  fault := b.fault
  rdata := b.rdata

/-- One rising edge of `clk`: the inputs `rst`, `cmd_valid`, `cmd`, and the block's output `cmd_ready`, about whose timing nothing
is said but that it is low while `rst` is high (R146, R155; log 8). -/
structure Edge where
  rst : Bool
  cmdValid : Bool
  cmd : CmdWord
  cmdReady : Bool
deriving DecidableEq, Repr

/-- The command port accepts the word (R155). -/
def Edge.accepts (e : Edge) : Bool := e.cmdValid && e.cmdReady && !e.rst

/-- What the block performs at an edge: reset whenever `rst` is high, whatever else is presented (R146), else an accepted word
(R155), else nothing (R6). -/
def Edge.event (e : Edge) : Option Event :=
  if e.rst then some .rst
  else if e.accepts then some (.cmd e.cmd)
  else none

/-- `cmd_ready` is low while `rst` is high (R146). -/
def Edge.readyLegal (e : Edge) : Bool := !(e.rst && e.cmdReady)

/-- The host neither changes nor withdraws a word that is still waiting (R9). A reset between releases it (log 8). -/
def Edge.keepsWord (before after : Edge) : Bool :=
  !(before.cmdValid && !before.cmdReady && !before.rst) || (after.cmdValid && after.cmd == before.cmd)

/-- Every edge of a trace keeps its side of the handshake. -/
def handshakeKept : List Edge → Bool
  | [] => true
  | [e] => e.readyLegal
  | e :: e' :: es => e.readyLegal && e.keepsWord e' && handshakeKept (e' :: es)

/-- The events of a trace of edges, in order. A trace that misuses the command port has no meaning
(spec/93_implementation_defined.md U7: refuse). -/
def eventsOf (es : List Edge) : Option (List Event) :=
  if handshakeKept es then some (es.filterMap Edge.event) else none

/-- The machine with a trace of edges to come, if the trace has a meaning. -/
def State.drivenBy (s : State) (es : List Edge) : Option State :=
  (eventsOf es).map s.setInbox

end Sys2Proof.Machine
end

