-- ==== Sys2Proof/Machine/Assembler.lean ====
section
/-! DEFINITION. The assembler of the spec's listings (spec/30_encoding.md R65 to R68): one line of source, with operands as numbers
of any size, to the commands it stands for. It rejects an operand that does not fit its field and never truncates (R65). Nothing
here touches the block (spec/92_eei_decisions.md D20). -/

namespace Sys2Proof.Machine

/-- A register operand: one of the names, or `r0` to `r15` (R65). -/
inductive RegOperand where
  | named (r : Reg)
  | numbered (k : Nat)
deriving DecidableEq, Repr

/-- Which address `LDIP` loads (R66). -/
inductive Side where
  | source
  | destination
deriving DecidableEq, Repr

/-- A source line: the nine commands and the four pseudo-instructions (R65 to R68). A hex digit is a number 0 to 15. -/
inductive SourceLine where
  | nop
  | init
  | wr (r : RegOperand) (imm : Nat)
  | rd (r : RegOperand)
  | addw (imm : Nat)
  | pkip (o1 o2 : Nat)
  | pushb (imm : Nat)
  | hdr
  | fin
  | ldip (side : Side) (quad : List Nat)
  | pushh (digits : List (BitVec 4))
  | pushw (imm : Nat)
  | csum (sip dip : List Nat) (sport dport len : Nat) (digits : List (BitVec 4))
deriving DecidableEq, Repr

/-- A number that fits in `w` bits, or nothing (R65). -/
def fitting (w k : Nat) : Option (BitVec w) := if k < 2 ^ w then some (BitVec.ofNat w k) else none

/-- `number(reg)` of the register table (R11). -/
def Reg.number (r : Reg) : RegNum :=
  match r with
  | .sport => 0
  | .dport => 1
  | .len => 2
  | .sip0 => 3
  | .sip1 => 4
  | .dip0 => 5
  | .dip1 => 6
  | .ctrl => 7
  | .status => 8
  | .accl => 9
  | .acch => 10
  | .res => 11
  | .pkb => 12

/-- The register number of an operand (R65). -/
def RegOperand.number? (r : RegOperand) : Option RegNum :=
  match r with
  | .named r => some r.number
  | .numbered k => fitting 4 k

/-- The two words of an address: exactly four numbers, each 0 to 255 (R66). -/
def quadWords (quad : List Nat) : Option (Word × Word) :=
  match quad with
  | [a, b, c, d] => do
    let a ← fitting 8 a
    let b ← fitting 8 b
    let c ← fitting 8 c
    let d ← fitting 8 d
    return (a ++ b, c ++ d)
  | _ => none

/-- `LDIP S, a.b.c.d` and `LDIP D, a.b.c.d` (R66). -/
def expandLdip (side : Side) (quad : List Nat) : Option (List Instr) := do
  let (hi, lo) ← quadWords quad
  match side with
  | .source => return [.wr Reg.sip0.number hi, .wr Reg.sip1.number lo]
  | .destination => return [.wr Reg.dip0.number hi, .wr Reg.dip1.number lo]

/-- `PUSHH`: one `PUSHB` for every two digits, left to right; an odd number of digits is rejected (R67). -/
def expandPushh : List (BitVec 4) → Option (List Instr)
  | [] => some []
  | [_] => none
  | h0 :: h1 :: hs => (expandPushh hs).map fun rest => .pushb (h0 ++ h1) :: rest

/-- The commands of a line, or nothing where the assembler rejects it (R65 to R68). -/
def assemble (line : SourceLine) : Option (List Instr) :=
  match line with
  | .nop => some [.nop]
  | .init => some [.init]
  | .wr r imm => do return [.wr (← r.number?) (← fitting 16 imm)]
  | .rd r => do return [.rd (← r.number?)]
  | .addw imm => do return [.addw (← fitting 16 imm)]
  | .pkip o1 o2 => do return [.pkip (← fitting 8 o1) (← fitting 8 o2)]
  | .pushb imm => do return [.pushb (← fitting 8 imm)]
  | .hdr => some [.hdr]
  | .fin => some [.fin]
  | .ldip side quad => expandLdip side quad
  | .pushh digits => expandPushh digits
  | .pushw imm => do
    let w ← fitting 16 imm
    return [.pushb (highByte w), .pushb (lowByte w)]
  | .csum sip dip sport dport len digits => do
    let source ← expandLdip .source sip
    let destination ← expandLdip .destination dip
    let sp ← fitting 16 sport
    let dp ← fitting 16 dport
    let ln ← fitting 16 len
    let payload ← expandPushh digits
    return [.init] ++ source ++ destination ++
      [.wr Reg.sport.number sp, .wr Reg.dport.number dp, .wr Reg.len.number ln, .hdr] ++ payload ++ [.fin]

/-- The commands of a listing, in order; one rejected line rejects it. -/
def assembleAll (lines : List SourceLine) : Option (List Instr) :=
  (lines.mapM assemble).map List.flatten

end Sys2Proof.Machine
end

