-- ==== Sys2Proof/Machine/Text.lean ====
section
/-! DEFINITION. Text beside the block, for a host-side tool: the listings' syntax (spec/30_encoding.md R65), the document's inputs
as commands (R70; spec/60_exceptions.md R139) and its output line (spec/42_fold_complement.md R109). The block never sees text
(spec/00_scope.md R3), so no step depends on this file. Text is a list of characters. Conventions: log 13. -/

namespace Sys2Proof.Machine

/-! ### Digits and numbers -/

/-- The value of a decimal digit. -/
def decimalDigit? (c : Char) : Option Nat :=
  if '0' ≤ c ∧ c ≤ '9' then some (c.toNat - '0'.toNat) else none

/-- The value of a hex digit; "upper and lower case digits are the same" (R67). -/
def hexDigit? (c : Char) : Option (BitVec 4) :=
  if '0' ≤ c ∧ c ≤ '9' then some (BitVec.ofNat 4 (c.toNat - '0'.toNat))
  else if 'a' ≤ c ∧ c ≤ 'f' then some (BitVec.ofNat 4 (c.toNat - 'a'.toNat + 10))
  else if 'A' ≤ c ∧ c ≤ 'F' then some (BitVec.ofNat 4 (c.toNat - 'A'.toNat + 10))
  else none

/-- A base-10 number: one digit or more and nothing else (R65, R70). -/
def decimal? (cs : List Char) : Option Nat :=
  match cs with
  | [] => none
  | _ => (cs.mapM decimalDigit?).map (List.foldl (fun n d => n * 10 + d) 0)

/-- A number: decimal, or hexadecimal with a `0x` prefix (R65). -/
def number? (cs : List Char) : Option Nat :=
  match cs with
  | ['0', 'x'] => none
  | '0' :: 'x' :: hs => (hs.mapM hexDigit?).map (List.foldl (fun n d => n * 16 + d.toNat) 0)
  | _ => decimal? cs

/-! ### Splitting -/

/-- The pieces between the separators, in order. -/
def splitAt (sep : Char) (cs : List Char) : List (List Char) :=
  match cs with
  | [] => [[]]
  | c :: rest =>
    if c = sep then [] :: splitAt sep rest
    else
      match splitAt sep rest with
      | [] => [[c]]
      | piece :: pieces => (c :: piece) :: pieces

def isBlank (c : Char) : Bool := c == ' ' || c == '\t'

/-- Without the blanks at both ends. -/
def trimBlanks (cs : List Char) : List Char :=
  ((cs.dropWhile isBlank).reverse.dropWhile isBlank).reverse

/-- The numbers of a dotted quad, however many there are (R66). -/
def quad? (cs : List Char) : Option (List Nat) := (splitAt '.' cs).mapM decimal?

/-- The digits between double quotes (R67). -/
def quoted? (cs : List Char) : Option (List (BitVec 4)) :=
  match cs with
  | '"' :: rest =>
    match rest.reverse with
    | '"' :: inner => inner.reverse.mapM hexDigit?
    | _ => none
  | _ => none

/-- A register operand (R65). -/
def register? (cs : List Char) : Option RegOperand :=
  if cs = "SPORT".toList then some (.named .sport)
  else if cs = "DPORT".toList then some (.named .dport)
  else if cs = "LEN".toList then some (.named .len)
  else if cs = "SIP0".toList then some (.named .sip0)
  else if cs = "SIP1".toList then some (.named .sip1)
  else if cs = "DIP0".toList then some (.named .dip0)
  else if cs = "DIP1".toList then some (.named .dip1)
  else if cs = "CTRL".toList then some (.named .ctrl)
  else if cs = "STATUS".toList then some (.named .status)
  else if cs = "ACCL".toList then some (.named .accl)
  else if cs = "ACCH".toList then some (.named .acch)
  else if cs = "RES".toList then some (.named .res)
  else if cs = "PKB".toList then some (.named .pkb)
  else
    match cs with
    | 'r' :: ds => (decimal? ds).map .numbered
    | _ => none

/-! ### Lines of a listing -/

/-- A line without its comment: a `;` starts one (R65). -/
def withoutComment (cs : List Char) : List Char := cs.takeWhile (fun c => c != ';')

/-- The operands of a line, separated by commas (R65). -/
def operandsOf (cs : List Char) : List (List Char) :=
  if (trimBlanks cs).isEmpty then [] else (splitAt ',' cs).map trimBlanks

/-- The source line of a mnemonic and its operands (R65 to R68). -/
def sourceLine? (mnemonic : List Char) (operands : List (List Char)) : Option SourceLine :=
  if mnemonic = "NOP".toList ∧ operands = [] then some .nop
  else if mnemonic = "INIT".toList ∧ operands = [] then some .init
  else if mnemonic = "HDR".toList ∧ operands = [] then some .hdr
  else if mnemonic = "FIN".toList ∧ operands = [] then some .fin
  else
    match operands with
    | [a] =>
      if mnemonic = "RD".toList then (register? a).map .rd
      else if mnemonic = "ADDW".toList then (number? a).map .addw
      else if mnemonic = "PUSHB".toList then (number? a).map .pushb
      else if mnemonic = "PUSHW".toList then (number? a).map .pushw
      else if mnemonic = "PUSHH".toList then (quoted? a).map .pushh
      else none
    | [a, b] =>
      if mnemonic = "WR".toList then do return .wr (← register? a) (← number? b)
      else if mnemonic = "PKIP".toList then do return .pkip (← number? a) (← number? b)
      else if mnemonic = "LDIP".toList ∧ a = ['S'] then (quad? b).map (.ldip .source)
      else if mnemonic = "LDIP".toList ∧ a = ['D'] then (quad? b).map (.ldip .destination)
      else none
    | [sip, dip, sport, dport, len, payload] =>
      if mnemonic = "CSUM".toList then do
        return .csum (← quad? sip) (← quad? dip) (← number? sport) (← number? dport) (← number? len)
          (← quoted? payload)
      else none
    | _ => none

/-- The commands of one line of a listing; a line with nothing but a comment stands for none (R65). -/
def assembleText (line : String) : Option (List Instr) :=
  let body := trimBlanks (withoutComment line.toList)
  if body.isEmpty then some []
  else
    (sourceLine? (body.takeWhile (fun c => !isBlank c))
      (operandsOf (body.dropWhile (fun c => !isBlank c)))).bind assemble

/-- The commands of a listing, one command or pseudo-instruction a line (R65). -/
def assembleListing (lines : List String) : Option (List Instr) :=
  (lines.mapM assembleText).map List.flatten

/-! ### The document's program around the block -/

/-- The commands a host tool issues for the document's six inputs (R70). A number that is not base 10, or does not fit its field,
ends the run with no command issued; it is never coerced (R139). -/
def hostCommands (sip dip sport dport len payload : String) : Option (List Instr) := do
  let line : SourceLine := .csum (← quad? sip.toList) (← quad? dip.toList) (← decimal? sport.toList)
    (← decimal? dport.toList) (← decimal? len.toList) (← payload.toList.mapM hexDigit?)
  assemble line

/-- A hex digit as text; the letter case is the host's choice (spec/93_implementation_defined.md U11). -/
def hexChar (upper : Bool) (d : BitVec 4) : Char :=
  Char.ofNat (if d.toNat < 10 then '0'.toNat + d.toNat
    else (if upper then 'A'.toNat else 'a'.toNat) + (d.toNat - 10))

/-- The output line: `Check sum: 0x` and exactly four hex digits of `RES`, most significant first (R109). -/
def checkSumLine (upper : Bool) (res : Word) : List Char :=
  "Check sum: 0x".toList ++
    [hexChar upper (res.extractLsb' 12 4), hexChar upper (res.extractLsb' 8 4),
     hexChar upper (res.extractLsb' 4 4), hexChar upper (res.extractLsb' 0 4)]

end Sys2Proof.Machine
end

