-- ==== Sys2Proof/Safety.lean ====
section
/-! DEFINITION. What claims are stated in terms of: the invariant of the block, the start and the end of a run
(spec/00_scope.md R8), and presenting commands to the machine (spec/20_memory.md R51). -/

namespace Sys2Proof.Machine

/-- What holds of the block in every reachable state: `ACC < 2^ACCW` (R29), `PKB` is 0 while no byte is pending (R31), at most one
fault bit is set (R128), without a completed `FIN` there is no result (R25 to R27, R32), and a folded result was complemented
(R106). -/
structure Block.Inv (cfg : Config) (b : Block) : Prop where
  acc_fits : b.acc.toNat < 2 ^ cfg.accw
  packer_empty : b.pkv = false → b.pkb = 0
  one_fault : ¬(b.fOvf ∧ b.fOdd) ∧ ¬(b.fOvf ∧ b.fIll) ∧ ¬(b.fOdd ∧ b.fIll)
  no_result : b.done = false → b.res = 0 ∧ b.folded = false ∧ b.cpld = false
  folded_cpld : b.folded = true → b.cpld = true

/-- The invariant of the machine: that of its block. What the host will present is unconstrained. -/
abbrev State.Inv (s : State) : Prop := s.block.Inv s.cfg

/-- A state from which a run starts: `ACC = 0`, `PKV = 0`, `DONE = 0` and no fault (R8). -/
def Block.startsRun (b : Block) : Bool := b.acc == 0 && !b.pkv && !b.done && !b.fault

/-- A run that ended well: `DONE = 1` with every fault bit 0; then `RES` is its checksum (R8). -/
def Block.endsWell (b : Block) : Bool := b.done && !b.fault

/-- A run that ended badly: a fault bit is 1 (R8). -/
def Block.endsBadly (b : Block) : Bool := b.fault

/-- The machine when the host presents the words of these commands next. -/
def State.present (s : State) (is : List Instr) : State :=
  s.setInbox (is.map (fun i => .cmd (encode i)) ++ s.inbox)

/-- The machine after the host has presented these commands and each has been performed (R51). -/
def State.perform (s : State) (is : List Instr) : Host.Outcome State Fault Refusal :=
  Sys2Proof.core.run is.length (s.present is)

end Sys2Proof.Machine
end

