-- ==== Sys2Proof/WellFormed.lean ====
section
/-! DEFINITION. Well-formed commands: those whose operands name a register the command may reach and a value the register may
hold (spec/30_encoding.md R62, R63). The operand widths are in the types, so nothing else can be ill-formed. A word that decodes
to an ill-formed command is still a command: it raises `F_ILL` when it is performed with no fault pending (R117, R118).
DESIGN CHOICE (log 10). -/

namespace Sys2Proof

/-- The checks of R62 and R63: `WR` of numbers 0 to 6 takes any value, `WR` of number 7 needs bits 15:3 zero, `WR` of 8 to 15 is
refused; `RD` of numbers 0 to 12 is legal. -/
def Instr.wellFormed : Instr → Bool
  | .nop => true
  | .init => true
  | .wr n v => decide (n.toNat < 7) || (n == 7#4 && v.extractLsb' 3 13 == 0#13)
  | .rd n => decide (n.toNat ≤ 12)
  | .addw _ => true
  | .pkip _ _ => true
  | .pushb _ => true
  | .hdr => true
  | .fin => true

/-- `Instr.wellFormed` as a decidable proposition. -/
abbrev Instr.WellFormed (i : Instr) : Prop := i.wellFormed = true

end Sys2Proof
end

