-- ==== Sys2Proof/Certificates/Slice0/Obligations.lean ====
section
/-! DEFINITION. The statements for the provers. Each says which rule of spec/ it formalises. -/

open Sys2Proof Sys2Proof.Machine

/-! ### Encoding (spec/30_encoding.md) -/

/-- Decoding the word of any command, with any operands, gives the command back: no bit of an encoding is dropped (R56, R58). -/
def Obligations.DecodeOfEncodeGivesTheCommandBack : Prop :=
  ∀ i : Instr, decode (encode i) = .command i

/-- A word that decodes to a command is that command's one word: no two words mean the same command (R56, R58, R61). -/
def Obligations.EveryCommandHasOneWord : Prop :=
  ∀ (c : CmdWord) (i : Instr), decode c = .command i → encode i = c

/-- R59: the nine rows of the opcode map. A word selects the command when `c & mask = match`, the rows are disjoint, and every word
that matches no row is `Illegal`. -/
def Obligations.OpcodeMapSelectsCommands : Prop :=
  (∀ c : CmdWord,
    (decode c = .command .nop ↔ c &&& 0xFFFFFF#24 = 0x000000#24) ∧
    (decode c = .command .init ↔ c &&& 0xFFFFFF#24 = 0x100000#24) ∧
    ((∃ n v, decode c = .command (.wr n v)) ↔ c &&& 0xF00000#24 = 0x200000#24) ∧
    ((∃ n, decode c = .command (.rd n)) ↔ c &&& 0xF0FFFF#24 = 0x300000#24) ∧
    ((∃ w, decode c = .command (.addw w)) ↔ c &&& 0xFF0000#24 = 0x400000#24) ∧
    ((∃ o1 o2, decode c = .command (.pkip o1 o2)) ↔ c &&& 0xFF0000#24 = 0x500000#24) ∧
    ((∃ b, decode c = .command (.pushb b)) ↔ c &&& 0xFFFF00#24 = 0x600000#24) ∧
    (decode c = .command .hdr ↔ c &&& 0xFFFFFF#24 = 0x700000#24) ∧
    (decode c = .command .fin ↔ c &&& 0xFFFFFF#24 = 0x800000#24) ∧
    ((∀ p ∈ [(0x000000#24, 0xFFFFFF#24), (0x100000#24, 0xFFFFFF#24), (0x200000#24, 0xF00000#24),
        (0x300000#24, 0xF0FFFF#24), (0x400000#24, 0xFF0000#24), (0x500000#24, 0xFF0000#24),
        (0x600000#24, 0xFFFF00#24), (0x700000#24, 0xFFFFFF#24), (0x800000#24, 0xFFFFFF#24)],
        c &&& p.2 ≠ p.1) → ∃ why, decode c = .illegal why)) ∧
  List.Pairwise (fun p q : CmdWord × CmdWord => ∀ c, ¬(c &&& p.2 = p.1 ∧ c &&& q.2 = q.1))
    [(0x000000#24, 0xFFFFFF#24), (0x100000#24, 0xFFFFFF#24), (0x200000#24, 0xF00000#24),
      (0x300000#24, 0xF0FFFF#24), (0x400000#24, 0xFF0000#24), (0x500000#24, 0xFF0000#24),
      (0x600000#24, 0xFFFF00#24), (0x700000#24, 0xFFFFFF#24), (0x800000#24, 0xFFFFFF#24)]

/-- R60: for each of the seven opcodes 0x9 to 0xF, every word, whatever its other 20 bits, is `Illegal` (7 x 2^20 words). -/
def Obligations.ReservedOpcodesAreIllegal : Prop :=
  ∀ (op : BitVec 4) (rest : BitVec 20), 9 ≤ op.toNat → ∃ why, decode (op ++ rest) = .illegal why

/-- R61: a word whose opcode is defined but whose format requires a field to be zero and it is not, is `Illegal`; it is not
performed as the command with the field ignored. -/
def Obligations.ReservedFieldsMustBeZero : Prop :=
  ∀ c : CmdWord,
    let op := c.extractLsb' 20 4
    let rn := c.extractLsb' 16 4
    let imm := c.extractLsb' 0 16
    (op = 0x0#4 ∨ op = 0x1#4 ∨ op = 0x7#4 ∨ op = 0x8#4 → rn ≠ 0#4 ∨ imm ≠ 0#16 → ∃ why, decode c = .illegal why) ∧
    (op = 0x3#4 → imm ≠ 0#16 → ∃ why, decode c = .illegal why) ∧
    (op = 0x4#4 ∨ op = 0x5#4 → rn ≠ 0#4 → ∃ why, decode c = .illegal why) ∧
    (op = 0x6#4 → rn ≠ 0#4 ∨ imm.extractLsb' 8 8 ≠ 0#8 → ∃ why, decode c = .illegal why)

/-- R62 and R63: words that pass `decode` and are refused by the command. `RD` of numbers 13 to 15, `WR` of numbers 8 to 15, and
`WR` of `CTRL` with a reserved bit set raise `F_ILL` and change nothing else; these are exactly the ill-formed commands. -/
def Obligations.RefusedWordsRaiseIllegal : Prop :=
  ∀ (i : Instr) (s : State), s.block.fault = false →
    (¬i.WellFormed ↔
      (∃ n, i = .rd n ∧ 13 ≤ n.toNat) ∨ (∃ n v, i = .wr n v ∧ 8 ≤ n.toNat) ∨
      (∃ v : Word, i = .wr 7#4 v ∧ v.extractLsb' 3 13 ≠ 0#13)) ∧
    (¬i.WellFormed →
      decode (encode i) = .command i ∧ exec i s = .next { s with block := { s.block with fIll := true } })

/-- Words written out from the encodings of R56, one of each format. -/
def Obligations.SampleWordsDecode : Prop :=
  decode 0x000000#24 = .command .nop ∧
  decode 0x20DE90#24 = .command (.wr 0#4 0xDE90#16) ∧
  decode 0x3A0000#24 = .command (.rd 10#4) ∧
  decode 0x40906C#24 = .command (.addw 0x906C#16) ∧
  decode 0x5004C8#24 = .command (.pkip 4#8 200#8) ∧
  decode 0x600090#24 = .command (.pushb 0x90#8) ∧
  decode 0x800000#24 = .command .fin

/-! ### The step (spec/00_scope.md R6, R7; spec/60_exceptions.md R128) -/

/-- When the word the host presents next decodes to a command, a step is that command performed on the state in which the word is
no longer waiting; nothing is added around it (R7, R51). -/
def Obligations.StepPerformsTheDecodedCommand : Prop :=
  ∀ (s : State) (c : CmdWord) (rest : List Event) (i : Instr),
    s.inbox = .cmd c :: rest → decode c = .command i → step s = exec i { s with inbox := rest }

/-- An `Illegal` word sets `F_ILL` and changes nothing else with no fault pending, and changes nothing at all with one pending
(R58, R128). -/
def Obligations.IllegalWordSetsOnlyFIll : Prop :=
  ∀ (s : State) (c : CmdWord) (rest : List Event) (why : IllegalWord),
    s.inbox = .cmd c :: rest → decode c = .illegal why →
      (s.block.fault = false →
        step s = .next { s with inbox := rest, block := { s.block with fIll := true } }) ∧
      (s.block.fault = true → step s = .next { s with inbox := rest })

/-- With no command presented and no reset, no state changes (R6). -/
def Obligations.IdleBlockHoldsItsState : Prop :=
  ∀ s : State, s.inbox = [] → step s = .next s

/-- `step` never fails to return a state: no command, no word and no event stops the machine (R7). -/
def Obligations.NothingStopsTheMachine : Prop :=
  (∀ (i : Instr) (s : State), ∃ t, exec i s = .next t) ∧ ∀ s : State, ∃ t, step s = .next t

/-- No step changes the width `ACCW` or what the host will present later; a step takes at most the next event (R4, R12, R51). -/
def Obligations.StepsLeaveTheEnvironmentAlone : Prop :=
  (∀ (i : Instr) (s t : State), exec i s = .next t → t.cfg = s.cfg ∧ t.inbox = s.inbox) ∧
  ∀ s t : State, step s = .next t → t.cfg = s.cfg ∧ t.inbox = s.inbox.tail

/-- R51: performing one sequence of commands after another is performing the two joined. -/
def Obligations.CommandsTakeEffectInOrder : Prop :=
  ∀ (s t : State) (is js : List Instr), s.perform is = .next t → s.perform (is ++ js) = t.perform js

/-- R128, the fault gate: with a fault pending, `NOP` and `INIT` and `RD` of numbers 0 to 12 are performed and every other word,
`Illegal` included, has no effect and sets no further fault bit; with none, every command is performed by its own rule and an
`Illegal` word sets `F_ILL`, and at most one fault bit becomes 1. While the gate is closed no field register and no bit of `CTRL` can
be written. -/
def Obligations.FaultGate : Prop :=
  ∀ (s : State) (c : CmdWord) (rest : List Event), s.inbox = .cmd c :: rest →
    (s.block.fault = true →
      (decode c = .command .nop → step s = .next { s with inbox := rest }) ∧
      (decode c = .command .init →
        ∃ t, exec .init { s with inbox := rest } = .next t ∧ step s = .next t ∧ t.block.fault = false) ∧
      (∀ n : RegNum, decode c = .command (.rd n) → n.toNat ≤ 12 →
        ∃ v, s.block.readNumber s.cfg n = some v ∧
          step s = .next { s with inbox := rest, block := { s.block with rdata := v } }) ∧
      (∀ n : RegNum, decode c = .command (.rd n) → 13 ≤ n.toNat → step s = .next { s with inbox := rest }) ∧
      (decode c ≠ .command .nop → decode c ≠ .command .init → (∀ n, decode c ≠ .command (.rd n)) →
        step s = .next { s with inbox := rest }) ∧
      (∀ t, step s = .next t →
        (t.block.sport = s.block.sport ∧ t.block.dport = s.block.dport ∧ t.block.len = s.block.len ∧
          t.block.sip0 = s.block.sip0 ∧ t.block.sip1 = s.block.sip1 ∧ t.block.dip0 = s.block.dip0 ∧
          t.block.dip1 = s.block.dip1 ∧ t.block.ctrl = s.block.ctrl) ∧
        (t.block.fOvf = true → s.block.fOvf = true) ∧ (t.block.fOdd = true → s.block.fOdd = true) ∧
        (t.block.fIll = true → s.block.fIll = true))) ∧
    (s.block.fault = false →
      (∀ i, decode c = .command i → step s = exec i { s with inbox := rest }) ∧
      ((∃ why, decode c = .illegal why) →
        step s = .next { s with inbox := rest, block := { s.block with fIll := true } }) ∧
      (∀ t, step s = .next t →
        ¬(t.block.fOvf = true ∧ t.block.fOdd = true) ∧ ¬(t.block.fOvf = true ∧ t.block.fIll = true) ∧
          ¬(t.block.fOdd = true ∧ t.block.fIll = true)))

/-! ### Faults (spec/60_exceptions.md) -/

/-- R126: `raise` is precise. A command that raises a fault changes that one fault bit and no other piece of state. -/
def Obligations.FaultsArePrecise : Prop :=
  ∀ (i : Instr) (s t : State), exec i s = .next t → s.block.fault = false → t.block.fault = true →
    t = { s with block := { s.block with fOvf := true } } ∨
    t = { s with block := { s.block with fOdd := true } } ∨
    t = { s with block := { s.block with fIll := true } }

/-- R127: fault bits are sticky. But for reset and `INIT`, no step clears a fault bit, and while one is set `DONE` cannot become 1. -/
def Obligations.FaultBitsAreSticky : Prop :=
  ∀ s t : State, step s = .next t →
    (∀ rest, s.inbox ≠ .rst :: rest) →
    (∀ c rest, s.inbox = .cmd c :: rest → decode c ≠ .command .init) →
      (s.block.fOvf = true → t.block.fOvf = true) ∧
      (s.block.fOdd = true → t.block.fOdd = true) ∧
      (s.block.fIll = true → t.block.fIll = true) ∧
      (s.block.fault = true → s.block.done = false → t.block.done = false) ∧
      (s.block.fault = true → t.block.endsWell = false)

/-- R129: the causes of `F_OVF`, complete. -/
def Obligations.CausesOfOverflow : Prop :=
  ∀ s t : State, s.block.fault = false → step s = .next t →
    (t.block.fOvf = true ↔
      ∃ c rest i, s.inbox = .cmd c :: rest ∧ decode c = .command i ∧
        ((∃ w, i = .addw w ∧ 2 ^ s.cfg.accw ≤ s.block.acc.toNat + w.toNat) ∨
         (∃ o1 o2, i = .pkip o1 o2 ∧
            2 ^ s.cfg.accw ≤ s.block.acc.toNat + (packIp o1 o2 s.block.ctrl.ippad).toNat) ∨
         (∃ b, i = .pushb b ∧ s.block.pkv = true ∧
            2 ^ s.cfg.accw ≤ s.block.acc.toNat + (packPl s.block.pkb b).toNat) ∨
         (i = .hdr ∧
            2 ^ s.cfg.accw ≤ s.block.acc.toNat + s.block.sport.toNat + s.block.dport.toNat +
              s.block.len.toNat + s.block.len.toNat + 0x11 +
              (packIp (s.block.sip0.extractLsb' 8 8) (s.block.sip0.extractLsb' 0 8) s.block.ctrl.ippad).toNat +
              (packIp (s.block.dip0.extractLsb' 8 8) (s.block.dip0.extractLsb' 0 8) s.block.ctrl.ippad).toNat +
              (packIp (s.block.sip1.extractLsb' 8 8) (s.block.sip1.extractLsb' 0 8) s.block.ctrl.ippad).toNat +
              (packIp (s.block.dip1.extractLsb' 8 8) (s.block.dip1.extractLsb' 0 8) s.block.ctrl.ippad).toNat)))

/-- R130: the causes of `F_ODD`, complete: `FIN` with `PKV = 1`; a `PUSHB` never raises it. -/
def Obligations.CausesOfOddPayload : Prop :=
  ∀ s t : State, s.block.fault = false → step s = .next t →
    (t.block.fOdd = true ↔
      ∃ c rest, s.inbox = .cmd c :: rest ∧ decode c = .command .fin ∧ s.block.pkv = true)

/-- R131: the causes of `F_ILL`, complete, with no fault pending. -/
def Obligations.CausesOfIllegal : Prop :=
  ∀ s t : State, s.block.fault = false → step s = .next t →
    (t.block.fIll = true ↔
      ∃ c rest, s.inbox = .cmd c :: rest ∧
        ((∃ why, decode c = .illegal why) ∨
         (∃ n v, decode c = .command (.wr n v) ∧ 8 ≤ n.toNat) ∨
         (∃ v : Word, decode c = .command (.wr 7#4 v) ∧ v.extractLsb' 3 13 ≠ 0#13) ∨
         (∃ n, decode c = .command (.rd n) ∧ 13 ≤ n.toNat)))

/-! ### Invariants and whole-machine rules -/

/-- The reset state meets the invariant (R145). -/
def Obligations.ResetMeetsTheInvariant : Prop := State.reset.Inv

/-- Every step keeps the invariant, from every state that meets it, whatever the host presents: `ACC < 2^ACCW` (R29), `PKB` is 0
while `PKV = 0` (R31), at most one fault bit is set (R128), there is no result before a completed `FIN` (R25 to R27, R32), and a
folded result was complemented (R106). -/
def Obligations.EveryStepKeepsTheInvariant : Prop :=
  ∀ s t : State, s.Inv → step s = .next t → t.Inv

/-- The write half of the table of R119: which commands may change which state. -/
def Obligations.OnlyTheTabulatedCommandsWrite : Prop :=
  ∀ (i : Instr) (s t : State), exec i s = .next t →
    (t.block.sport ≠ s.block.sport ∨ t.block.dport ≠ s.block.dport ∨ t.block.len ≠ s.block.len ∨
      t.block.sip0 ≠ s.block.sip0 ∨ t.block.sip1 ≠ s.block.sip1 ∨ t.block.dip0 ≠ s.block.dip0 ∨
      t.block.dip1 ≠ s.block.dip1 → ∃ n v, i = .wr n v) ∧
    (t.block.ctrl ≠ s.block.ctrl → ∃ v, i = .wr 7#4 v) ∧
    (t.block.acc ≠ s.block.acc →
      i = .init ∨ (∃ w, i = .addw w) ∨ (∃ o1 o2, i = .pkip o1 o2) ∨ (∃ b, i = .pushb b) ∨ i = .hdr) ∧
    (t.block.pkb ≠ s.block.pkb ∨ t.block.pkv ≠ s.block.pkv → i = .init ∨ ∃ b, i = .pushb b) ∧
    (t.block.res ≠ s.block.res ∨ t.block.done ≠ s.block.done ∨ t.block.folded ≠ s.block.folded ∨
      t.block.cpld ≠ s.block.cpld → i = .init ∨ i = .fin) ∧
    (t.block.fOvf ≠ s.block.fOvf →
      i = .init ∨ (∃ w, i = .addw w) ∨ (∃ o1 o2, i = .pkip o1 o2) ∨ (∃ b, i = .pushb b) ∨ i = .hdr) ∧
    (t.block.fOdd ≠ s.block.fOdd → i = .init ∨ i = .fin) ∧
    (t.block.fIll ≠ s.block.fIll → i = .init ∨ (∃ n v, i = .wr n v) ∨ ∃ n, i = .rd n) ∧
    (t.block.rdata ≠ s.block.rdata → ∃ n, i = .rd n)

/-- R91: `ACC` never wraps: but for `INIT`, no command makes it smaller, from any state in which it fits. -/
def Obligations.AccumulatorNeverWraps : Prop :=
  ∀ (i : Instr) (s t : State), s.Inv → i ≠ .init → exec i s = .next t →
    s.block.acc.toNat ≤ t.block.acc.toNat ∧ t.block.acc.toNat < 2 ^ t.cfg.accw

/-- The read half of R119 for the mode bits: `CTRL.IPPAD` matters to `PKIP`, `HDR` and register 7 alone, and `CTRL.CPLALL` and
`CTRL.FOLDLOOP` to `FIN` and register 7 alone (R21, R81, R107). -/
def Obligations.ModeBitsMatterOnlyWhereRead : Prop :=
  ∀ (i : Instr) (s t : State), (∀ v, i ≠ .wr 7#4 v) → i ≠ .rd 7#4 → exec i s = .next t →
    ((∀ o1 o2, i ≠ .pkip o1 o2) → i ≠ .hdr → ∀ p : Bool,
      exec i { s with block := { s.block with ctrl := { s.block.ctrl with ippad := p } } } =
        .next { t with block := { t.block with ctrl := { t.block.ctrl with ippad := p } } }) ∧
    (i ≠ .fin → ∀ p q : Bool,
      exec i { s with block := { s.block with ctrl := { s.block.ctrl with cplall := p, foldloop := q } } } =
        .next { t with block := { t.block with ctrl := { t.block.ctrl with cplall := p, foldloop := q } } })

/-- The read half of R119 for the outputs of a run: no command reads `DONE`, `FOLDED`, `CPLD`, `RES` or `RDATA` but to copy them
into `RDATA`. Two states that differ only there still differ only there after the same command. -/
def Obligations.ResultsAreNeverReadBack : Prop :=
  ∀ (i : Instr) (s t : State) (r x : Word) (d f k : Bool), exec i s = .next t →
    ∃ (r' x' : Word) (d' f' k' : Bool),
      exec i { s with block := { s.block with res := r, rdata := x, done := d, folded := f, cpld := k } } =
        .next { t with block := { t.block with res := r', rdata := x', done := d', folded := f', cpld := k' } }

/-! ### Reset and ports (spec/70_reset_and_hazards.md, spec/10_state.md R34) -/

/-- R145: after reset every piece of state is zero, every output with it, and the state is a start of a run. -/
def Obligations.ResetStateIsAllZero : Prop :=
  State.reset.block =
    { sport := 0#16, dport := 0#16, len := 0#16, sip0 := 0#16, sip1 := 0#16, dip0 := 0#16, dip1 := 0#16,
      ctrl := { ippad := false, cplall := false, foldloop := false }, acc := 0#32, pkb := 0#8, pkv := false,
      res := 0#16, done := false, folded := false, cpld := false, fOvf := false, fOdd := false, fIll := false,
      rdata := 0#16 } ∧
  State.reset.block.outputs = { res := 0#16, status := 0#16, done := false, fault := false, rdata := 0#16 } ∧
  State.reset.block.startsRun = true

/-- R146: at every clock edge at which `rst` is high the block takes the reset state, whatever else is presented and whatever it
held; a command presented at the same edge is not performed, since `cmd_ready` is low. -/
def Obligations.ResetDominates : Prop :=
  (∀ e : Edge, e.rst = true →
    e.event = some .rst ∧ e.accepts = false ∧ (e.readyLegal = true → e.cmdReady = false)) ∧
  ∀ (s : State) (rest : List Event), s.inbox = .rst :: rest →
    step s = .next { s with inbox := rest, block := State.reset.block }

/-- R155: a command is accepted exactly at an edge at which `cmd_valid` and `cmd_ready` are high and `rst` is low. -/
def Obligations.CommandAcceptedOnHandshake : Prop :=
  ∀ (e : Edge) (c : CmdWord),
    e.event = some (.cmd c) ↔ e.cmdValid = true ∧ e.cmdReady = true ∧ e.rst = false ∧ e.cmd = c

/-- R147: `INIT` and reset compared. Reset writes 0 to everything; `INIT` writes 0 to the same items but for the seven field
registers, `CTRL` and `RDATA`, which it keeps. -/
def Obligations.InitIsResetButForInputs : Prop :=
  ∀ s : State,
    let zeros : Block :=
      { sport := 0#16, dport := 0#16, len := 0#16, sip0 := 0#16, sip1 := 0#16, dip0 := 0#16, dip1 := 0#16,
        ctrl := { ippad := false, cplall := false, foldloop := false }, acc := 0#32, pkb := 0#8, pkv := false,
        res := 0#16, done := false, folded := false, cpld := false, fOvf := false, fOdd := false, fIll := false,
        rdata := 0#16 }
    (∀ rest, s.inbox = .rst :: rest → step s = .next { s with inbox := rest, block := zeros }) ∧
    exec .init s = .next { s with block := { zeros with
      sport := s.block.sport, dport := s.block.dport, len := s.block.len, sip0 := s.block.sip0,
      sip1 := s.block.sip1, dip0 := s.block.dip0, dip1 := s.block.dip1, ctrl := s.block.ctrl,
      rdata := s.block.rdata } }

/-- R34: the output ports are views of state; `status` bit by bit as R23 lays it out, `fault` the OR of the fault bits. -/
def Obligations.OutputsAreViewsOfState : Prop :=
  ∀ b : Block,
    b.outputs.res = b.res ∧ b.outputs.done = b.done ∧ b.outputs.rdata = b.rdata ∧
    (b.outputs.fault = true ↔ b.fOvf = true ∨ b.fOdd = true ∨ b.fIll = true) ∧
    b.outputs.status.getLsbD 0 = b.pkv ∧ b.outputs.status.getLsbD 1 = b.done ∧
    b.outputs.status.getLsbD 2 = b.folded ∧ b.outputs.status.getLsbD 3 = b.cpld ∧
    b.outputs.status.getLsbD 8 = b.fOvf ∧ b.outputs.status.getLsbD 9 = b.fOdd ∧
    b.outputs.status.getLsbD 10 = b.fIll ∧
    ∀ k, 4 ≤ k ∧ k ≤ 7 ∨ 11 ≤ k → b.outputs.status.getLsbD k = false

/-! ### Control and register access (spec/43_control_register.md) -/

/-- R115: `NOP` is the word 0 alone, and changes no state, fault pending or not. -/
def Obligations.NopChangesNothing : Prop :=
  (∀ s : State, exec .nop s = .next s) ∧
  encode .nop = 0x000000#24 ∧
  ∀ c : CmdWord, c.extractLsb' 20 4 = 0#4 → c ≠ 0x000000#24 → ∃ why, decode c = .illegal why

/-- R116: `INIT` clears the accumulator, the packer, the result and all of `STATUS`, keeps everything else, is performed even while
a fault is pending, and is the only command that clears a fault. -/
def Obligations.InitStartsANewRun : Prop :=
  encode .init = 0x100000#24 ∧
  ∀ s : State, ∃ b : Block,
    exec .init s = .next { s with block := b } ∧
    b = { s.block with
      acc := 0#32, pkb := 0#8, pkv := false, res := 0#16, done := false, folded := false, cpld := false,
      fOvf := false, fOdd := false, fIll := false } ∧
    b.status = 0#16 ∧ b.startsRun = true ∧
    ∀ (i : Instr) (t : State), s.block.fault = true → exec i s = .next t → t.block.fault = false → i = .init

/-- R117 with R43: what `WR` writes for each register number, what it refuses, its word, and that it does nothing with a fault
pending. -/
def Obligations.WrWritesTheNamedRegister : Prop :=
  ∀ (n : RegNum) (v : Word) (s : State),
    (encode (.wr n v)).toNat = 0x200000 + n.toNat * 65536 + v.toNat ∧
    (s.block.fault = true → exec (.wr n v) s = .next s) ∧
    (s.block.fault = false →
      exec (.wr 0#4 v) s = .next { s with block := { s.block with sport := v } } ∧
      exec (.wr 1#4 v) s = .next { s with block := { s.block with dport := v } } ∧
      exec (.wr 2#4 v) s = .next { s with block := { s.block with len := v } } ∧
      exec (.wr 3#4 v) s = .next { s with block := { s.block with sip0 := v } } ∧
      exec (.wr 4#4 v) s = .next { s with block := { s.block with sip1 := v } } ∧
      exec (.wr 5#4 v) s = .next { s with block := { s.block with dip0 := v } } ∧
      exec (.wr 6#4 v) s = .next { s with block := { s.block with dip1 := v } } ∧
      (v.extractLsb' 3 13 = 0#13 →
        exec (.wr 7#4 v) s = .next { s with block := { s.block with
          ctrl := { ippad := v.getLsbD 0, cplall := v.getLsbD 1, foldloop := v.getLsbD 2 } } }) ∧
      (v.extractLsb' 3 13 ≠ 0#13 →
        exec (.wr 7#4 v) s = .next { s with block := { s.block with fIll := true } }) ∧
      (8 ≤ n.toNat → exec (.wr n v) s = .next { s with block := { s.block with fIll := true } }))

/-- R118 with R42: what `RD` puts in `RDATA` for each register number, changing nothing else and fault pending or not; `RD` of 13 to
15 raises `F_ILL`, or does nothing with a fault pending; its word; no other word with its opcode is a command. -/
def Obligations.RdReadsTheNamedRegister : Prop :=
  ∀ (n : RegNum) (s : State),
    (encode (.rd n)).toNat = 0x300000 + n.toNat * 65536 ∧
    (∀ imm : Word, imm ≠ 0#16 → ∃ why, decode (3#4 ++ n ++ imm) = .illegal why) ∧
    exec (.rd 0#4) s = .next { s with block := { s.block with rdata := s.block.sport } } ∧
    exec (.rd 1#4) s = .next { s with block := { s.block with rdata := s.block.dport } } ∧
    exec (.rd 2#4) s = .next { s with block := { s.block with rdata := s.block.len } } ∧
    exec (.rd 3#4) s = .next { s with block := { s.block with rdata := s.block.sip0 } } ∧
    exec (.rd 4#4) s = .next { s with block := { s.block with rdata := s.block.sip1 } } ∧
    exec (.rd 5#4) s = .next { s with block := { s.block with rdata := s.block.dip0 } } ∧
    exec (.rd 6#4) s = .next { s with block := { s.block with rdata := s.block.dip1 } } ∧
    exec (.rd 7#4) s = .next { s with block := { s.block with
      rdata := BitVec.ofNat 16 (s.block.ctrl.foldloop.toNat * 4 + s.block.ctrl.cplall.toNat * 2 +
        s.block.ctrl.ippad.toNat) } } ∧
    exec (.rd 8#4) s = .next { s with block := { s.block with rdata := s.block.status } } ∧
    exec (.rd 9#4) s = .next { s with block := { s.block with rdata := s.block.acc.extractLsb' 0 16 } } ∧
    exec (.rd 10#4) s = .next { s with block := { s.block with
      rdata := BitVec.ofNat 16 (s.block.acc.toNat % 2 ^ s.cfg.accw / 65536) } } ∧
    exec (.rd 11#4) s = .next { s with block := { s.block with rdata := s.block.res } } ∧
    exec (.rd 12#4) s = .next { s with block := { s.block with rdata := s.block.pkb.setWidth 16 } } ∧
    (13 ≤ n.toNat → s.block.fault = false →
      exec (.rd n) s = .next { s with block := { s.block with fIll := true } }) ∧
    (13 ≤ n.toNat → s.block.fault = true → exec (.rd n) s = .next s)

/-- R30: `ACCL` and `ACCH`. With `ACCW = 32` `ACCH` is `ACC[31:16]`, with a smaller `ACCW` the missing high bits read 0; two reads with
nothing between them give the whole of `ACC`; neither can be written. -/
def Obligations.AccumulatorReadsThroughTwoHalves : Prop :=
  ∀ s : State, s.Inv →
    (∀ t, exec (.rd 10#4) s = .next t →
      (s.cfg.accw = 32 → t.block.rdata = s.block.acc.extractLsb' 16 16) ∧
      ∀ k, s.cfg.accw ≤ 16 + k → t.block.rdata.getLsbD k = false) ∧
    (∃ t u, exec (.rd 9#4) s = .next t ∧ exec (.rd 10#4) t = .next u ∧
      u.block.rdata.toNat * 65536 + t.block.rdata.toNat = s.block.acc.toNat) ∧
    ∀ (n : RegNum) (v : Word), s.block.fault = false → n = 9#4 ∨ n = 10#4 →
      exec (.wr n v) s = .next { s with block := { s.block with fIll := true } }

/-! ### The packers (spec/40_packer.md) -/

/-- R75: `pack_pl` puts the first byte in the high half; it is total and every 16-bit value is the image of exactly one pair. -/
def Obligations.PayloadPackerIsABijection : Prop :=
  (∀ b1 b2 : Byte, (packPl b1 b2).toNat = b1.toNat * 256 + b2.toNat) ∧
  ∀ w : Word, ∃ p : Byte × Byte, packPl p.1 p.2 = w ∧ ∀ q : Byte × Byte, packPl q.1 q.2 = w → q = p

/-- `pack_ip` in both modes (R78); with `pad = 1` it is injective and with `pad = 0` it is not; the two modes agree exactly when the
second octet is 16 or more or the first is 0. For a second octet 0 in legacy mode the value rests on what R79 and
spec/93_implementation_defined.md G2 mark as general knowledge: 0 is written as one hex digit (PRESUMED, log 12). -/
def Obligations.IpPackerInBothModes : Prop :=
  (∀ o1 o2 : Byte,
    (packIp o1 o2 true).toNat = o1.toNat * 256 + o2.toNat ∧
    (16 ≤ o2.toNat → (packIp o1 o2 false).toNat = o1.toNat * 256 + o2.toNat) ∧
    (o2.toNat < 16 → (packIp o1 o2 false).toNat = o1.toNat * 16 + o2.toNat) ∧
    (packIp o1 o2 false = packIp o1 o2 true ↔ 16 ≤ o2.toNat ∨ o1 = 0#8)) ∧
  (∀ o1 o2 p1 p2 : Byte, packIp o1 o2 true = packIp p1 p2 true → o1 = p1 ∧ o2 = p2) ∧
  packIp 1#8 1#8 false = 0x0011#16 ∧ packIp 0#8 17#8 false = 0x0011#16

/-- R77: `PUSHB`. A first byte is held. A second one is paired with it, the earlier byte high, and the word added; when the word does
not fit, `F_OVF` alone is set and the byte is lost. Its word; the must-be-zero fields; nothing with a fault pending. -/
def Obligations.PushbPairsPayloadBytes : Prop :=
  ∀ (b : Byte) (s : State),
    (encode (.pushb b)).toNat = 0x600000 + b.toNat ∧
    (∀ (rn : RegNum) (hi : Byte), rn ≠ 0#4 ∨ hi ≠ 0#8 → ∃ why, decode (6#4 ++ rn ++ hi ++ b) = .illegal why) ∧
    (s.block.fault = true → exec (.pushb b) s = .next s) ∧
    (s.block.fault = false → s.block.pkv = false →
      exec (.pushb b) s = .next { s with block := { s.block with pkb := b, pkv := true } }) ∧
    (s.block.fault = false → s.block.pkv = true →
      s.block.acc.toNat + (s.block.pkb.toNat * 256 + b.toNat) < 2 ^ s.cfg.accw →
      exec (.pushb b) s = .next { s with block := { s.block with
        acc := BitVec.ofNat 32 (s.block.acc.toNat + (s.block.pkb.toNat * 256 + b.toNat)),
        pkb := 0#8, pkv := false } }) ∧
    (s.block.fault = false → s.block.pkv = true →
      2 ^ s.cfg.accw ≤ s.block.acc.toNat + (s.block.pkb.toNat * 256 + b.toNat) →
      exec (.pushb b) s = .next { s with block := { s.block with fOvf := true } })

/-- R80: `PKIP` adds the packed word, or raises `F_OVF` and adds nothing; its word; the must-be-zero field; nothing with a fault
pending. -/
def Obligations.PkipAddsThePackedOctets : Prop :=
  ∀ (o1 o2 : Byte) (s : State),
    (encode (.pkip o1 o2)).toNat = 0x500000 + o1.toNat * 256 + o2.toNat ∧
    (∀ rn : RegNum, rn ≠ 0#4 → ∃ why, decode (5#4 ++ rn ++ o1 ++ o2) = .illegal why) ∧
    (s.block.fault = true → exec (.pkip o1 o2) s = .next s) ∧
    (s.block.fault = false →
      s.block.acc.toNat + (packIp o1 o2 s.block.ctrl.ippad).toNat < 2 ^ s.cfg.accw →
      exec (.pkip o1 o2) s = .next { s with block := { s.block with
        acc := BitVec.ofNat 32 (s.block.acc.toNat + (packIp o1 o2 s.block.ctrl.ippad).toNat) } }) ∧
    (s.block.fault = false →
      2 ^ s.cfg.accw ≤ s.block.acc.toNat + (packIp o1 o2 s.block.ctrl.ippad).toNat →
      exec (.pkip o1 o2) s = .next { s with block := { s.block with fOvf := true } })

/-- R82: the fate of an unpaired byte. A pending byte leaves the packer in exactly three ways: a further `PUSHB` pairs it and adds
the word, `INIT` discards it, reset discards it. -/
def Obligations.FateOfAnUnpairedByte : Prop :=
  ∀ s t : State, s.block.pkv = true → step s = .next t →
    (t.block.pkv = false →
      (∃ rest, s.inbox = .rst :: rest) ∨
      (∃ c rest, s.inbox = .cmd c :: rest ∧ decode c = .command .init) ∨
      (∃ c rest b, s.inbox = .cmd c :: rest ∧ decode c = .command (.pushb b) ∧
        t.block.acc.toNat = s.block.acc.toNat + (s.block.pkb.toNat * 256 + b.toNat))) ∧
    (t.block.pkv = true → t.block.pkb = s.block.pkb) ∧
    (∀ c rest, s.inbox = .cmd c :: rest → decode c = .command .fin →
      t.block.pkv = true ∧ t.block.pkb = s.block.pkb ∧ t.block.res = s.block.res ∧
        (s.block.fault = false → t.block.fOdd = true))

/-- Payload bytes pushed in order from an empty packer add their words, the first byte of each pair the high half, and leave
everything else as it was (R44, R47, R77; step 7 of R94). -/
def Obligations.PayloadWordsAccumulateInOrder : Prop :=
  ∀ (s : State) (payload : List (Byte × Byte)), s.block.fault = false → s.block.pkv = false → s.block.pkb = 0#8 →
    s.block.acc.toNat + (payload.map fun p => p.1.toNat * 256 + p.2.toNat).sum < 2 ^ s.cfg.accw →
    s.perform (payload.flatMap fun p => [.pushb p.1, .pushb p.2]) =
      .next { s with block := { s.block with
        acc := BitVec.ofNat 32
          (s.block.acc.toNat + (payload.map fun p => p.1.toNat * 256 + p.2.toNat).sum) } }

/-! ### The accumulator (spec/41_accumulate.md) -/

/-- R92: `ADDW` adds its word exactly, or raises `F_OVF` and adds nothing; its word; the must-be-zero field; nothing with a fault
pending; it has the effect on `ACC` of the two `PUSHB` of its halves from an empty packer, where the sum fits. -/
def Obligations.AddwAddsOneWord : Prop :=
  ∀ (w : Word) (s : State),
    (encode (.addw w)).toNat = 0x400000 + w.toNat ∧
    (∀ rn : RegNum, rn ≠ 0#4 → ∃ why, decode (4#4 ++ rn ++ w) = .illegal why) ∧
    (s.block.fault = true → exec (.addw w) s = .next s) ∧
    (s.block.fault = false → s.block.acc.toNat + w.toNat < 2 ^ s.cfg.accw →
      exec (.addw w) s = .next { s with block := { s.block with
        acc := BitVec.ofNat 32 (s.block.acc.toNat + w.toNat) } }) ∧
    (s.block.fault = false → 2 ^ s.cfg.accw ≤ s.block.acc.toNat + w.toNat →
      exec (.addw w) s = .next { s with block := { s.block with fOvf := true } }) ∧
    (∀ b1 b2 : Byte, w = b1 ++ b2 → s.block.pkv = false → s.block.acc.toNat + w.toNat < 2 ^ s.cfg.accw →
      ∃ t u : State, exec (.addw w) s = .next t ∧ s.perform [.pushb b1, .pushb b2] = .next u ∧
        u.block.acc = t.block.acc)

/-- R93: `HDR` adds the nine header words, or raises `F_OVF` and adds none; its word; the must-be-zero fields; nothing with a fault
pending. -/
def Obligations.HdrAddsThePseudoHeader : Prop :=
  ∀ s : State,
    let p := s.block.ctrl.ippad
    let total := s.block.acc.toNat + s.block.sport.toNat + s.block.dport.toNat + s.block.len.toNat +
      s.block.len.toNat + 0x0011 +
      (packIp (s.block.sip0.extractLsb' 8 8) (s.block.sip0.extractLsb' 0 8) p).toNat +
      (packIp (s.block.dip0.extractLsb' 8 8) (s.block.dip0.extractLsb' 0 8) p).toNat +
      (packIp (s.block.sip1.extractLsb' 8 8) (s.block.sip1.extractLsb' 0 8) p).toNat +
      (packIp (s.block.dip1.extractLsb' 8 8) (s.block.dip1.extractLsb' 0 8) p).toNat
    encode .hdr = 0x700000#24 ∧
    (∀ (rn : RegNum) (imm : Word), rn ≠ 0#4 ∨ imm ≠ 0#16 → ∃ why, decode (7#4 ++ rn ++ imm) = .illegal why) ∧
    (s.block.fault = true → exec .hdr s = .next s) ∧
    (s.block.fault = false → total < 2 ^ s.cfg.accw →
      exec .hdr s = .next { s with block := { s.block with acc := BitVec.ofNat 32 total } }) ∧
    (s.block.fault = false → 2 ^ s.cfg.accw ≤ total →
      exec .hdr s = .next { s with block := { s.block with fOvf := true } })

/-- R95: `HDR` and the nine primitives. With no fault pending they leave the same state where neither raises `F_OVF`; one raises it
exactly when the other does; then they differ in `ACC` alone: `HDR` leaves it as it was, the sequence at the last partial sum that
fitted. -/
def Obligations.HdrIsTheNinePrimitives : Prop :=
  ∀ s t u : State, s.block.fault = false → s.block.acc.toNat < 2 ^ s.cfg.accw → exec .hdr s = .next t →
    s.perform [.addw s.block.sport, .addw s.block.dport, .addw s.block.len, .addw s.block.len, .addw 0x0011#16,
      .pkip (s.block.sip0.extractLsb' 8 8) (s.block.sip0.extractLsb' 0 8),
      .pkip (s.block.dip0.extractLsb' 8 8) (s.block.dip0.extractLsb' 0 8),
      .pkip (s.block.sip1.extractLsb' 8 8) (s.block.sip1.extractLsb' 0 8),
      .pkip (s.block.dip1.extractLsb' 8 8) (s.block.dip1.extractLsb' 0 8)] = .next u →
    let p := s.block.ctrl.ippad
    let addends := [s.block.sport.toNat, s.block.dport.toNat, s.block.len.toNat, s.block.len.toNat, 0x0011,
      (packIp (s.block.sip0.extractLsb' 8 8) (s.block.sip0.extractLsb' 0 8) p).toNat,
      (packIp (s.block.dip0.extractLsb' 8 8) (s.block.dip0.extractLsb' 0 8) p).toNat,
      (packIp (s.block.sip1.extractLsb' 8 8) (s.block.sip1.extractLsb' 0 8) p).toNat,
      (packIp (s.block.dip1.extractLsb' 8 8) (s.block.dip1.extractLsb' 0 8) p).toNat]
    t.block.fOvf = u.block.fOvf ∧
    (t.block.fOvf = false → t = u) ∧
    (t.block.fOvf = true →
      t.block.acc = s.block.acc ∧
      (∃ k, k < 9 ∧ u.block.acc.toNat = s.block.acc.toNat + (addends.take k).sum ∧
        s.block.acc.toNat + (addends.take k).sum < 2 ^ s.cfg.accw ∧
        2 ^ s.cfg.accw ≤ s.block.acc.toNat + (addends.take (k + 1)).sum) ∧
      { t with block := { t.block with acc := u.block.acc } } = u)

/-! ### Fold, complement, result (spec/42_fold_complement.md) -/

/-- R101: one fold pass, for every sum that 32 bits hold: low half plus the rest, at most 0x1FFFE; it leaves a 16-bit value unchanged;
the smallest sum whose pass carries into bit 16 is 0x1FFFF. -/
def Obligations.OneFoldPass : Prop :=
  (∀ s, s < 2 ^ 32 →
    fold1 s = s % 65536 + s / 65536 ∧ fold1 s ≤ 0x1FFFE ∧ (s ≤ 0xFFFF → fold1 s = s) ∧
    (0x10000 ≤ fold1 s → 0x1FFFF ≤ s)) ∧
  fold1 0x1FFFF = 0x10000

/-- R102: single pass or loop. The legacy fold is one pass; the looped fold ends in a 16-bit value after at most one pass more, for
every sum that 32 bits hold; the two differ exactly where the single pass carries. -/
def Obligations.FoldSinglePassOrLoop : Prop :=
  ∀ s, s < 2 ^ 32 →
    fold s false = fold1 s ∧
    fold s true ≤ 0xFFFF ∧
    (fold1 s ≤ 0xFFFF → fold s true = fold1 s) ∧
    (0xFFFF < fold1 s → fold s true = fold1 (fold1 s)) ∧
    (fold s true ≠ fold s false ↔ 0x10000 ≤ s % 65536 + s / 65536)

/-- R103 and R104: the complement of an 18-bit value is 0xFFFF less its low 16 bits, the two top bits of the bus being discarded;
what `FIN` complements is at most 0x1FFFE, so the bus loses nothing. -/
def Obligations.ComplementDropsTwoBits : Prop :=
  (∀ f, f < 2 ^ 18 → (cpl18 f).toNat = 0xFFFF - f % 0x10000) ∧
  ∀ (s : Nat) (loop : Bool), s < 2 ^ 32 → fold s loop ≤ 0x1FFFE ∧ (BitVec.ofNat 18 (fold s loop)).toNat = fold s loop

/-- R106: `FIN` by the document's procedure: `F_ODD` and nothing else with a byte pending, else fold and complement as the sum and the
mode bits say, and the flags; `ACC` is not written; its word; the must-be-zero fields; nothing with a fault pending. -/
def Obligations.FinDeliversTheResult : Prop :=
  ∀ s : State,
    let a := s.block.acc.toNat
    encode .fin = 0x800000#24 ∧
    (∀ (rn : RegNum) (imm : Word), rn ≠ 0#4 ∨ imm ≠ 0#16 → ∃ why, decode (8#4 ++ rn ++ imm) = .illegal why) ∧
    (s.block.fault = true → exec .fin s = .next s) ∧
    (s.block.fault = false → s.block.pkv = true →
      exec .fin s = .next { s with block := { s.block with fOdd := true } }) ∧
    (s.block.fault = false → s.block.pkv = false → 0xFFFF < a →
      exec .fin s = .next { s with block := { s.block with
        res := cpl18 (fold a s.block.ctrl.foldloop), folded := true, cpld := true, done := true } }) ∧
    (s.block.fault = false → s.block.pkv = false → a ≤ 0xFFFF → s.block.ctrl.cplall = true →
      exec .fin s = .next { s with block := { s.block with
        res := cpl18 a, folded := false, cpld := true, done := true } }) ∧
    (s.block.fault = false → s.block.pkv = false → a ≤ 0xFFFF → s.block.ctrl.cplall = false →
      exec .fin s = .next { s with block := { s.block with
        res := s.block.acc.extractLsb' 0 16, folded := false, cpld := false, done := true } })

/-- R107: `RES`, `FOLDED` and `CPLD` as a function of the sum and the mode bits, in closed form. -/
def Obligations.ResultInClosedForm : Prop :=
  ∀ s : State, s.block.fault = false → s.block.pkv = false →
    let a := s.block.acc.toNat
    let m := a % 65536 + a / 65536
    ∃ r : Word, ∃ f k : Bool,
      exec .fin s = .next { s with block := { s.block with res := r, folded := f, cpld := k, done := true } } ∧
      (a ≤ 0xFFFF → s.block.ctrl.cplall = false → r.toNat = a ∧ f = false ∧ k = false) ∧
      (a ≤ 0xFFFF → s.block.ctrl.cplall = true → r.toNat = 0xFFFF - a ∧ f = false ∧ k = true) ∧
      (0xFFFF < a → s.block.ctrl.foldloop = false → r.toNat = 0xFFFF - m % 0x10000 ∧ f = true ∧ k = true) ∧
      (0xFFFF < a → s.block.ctrl.foldloop = true → m ≤ 0xFFFF → r.toNat = 0xFFFF - m ∧ f = true ∧ k = true) ∧
      (0xFFFF < a → s.block.ctrl.foldloop = true → 0xFFFF < m →
        r.toNat = 0xFFFF - (m - 0xFFFF) ∧ f = true ∧ k = true)

/-- R108: `FIN` does not consume the sum. `ACC` is unchanged by it, and a second `FIN`, from any state with the same `ACC`, `PKV` and
`CTRL` and no fault pending, writes the same `RES` and flags. -/
def Obligations.FinMayBeRepeated : Prop :=
  ∀ s t u v : State, exec .fin s = .next t → t.block.fault = false →
    u.block.acc = t.block.acc → u.block.pkv = t.block.pkv → u.block.ctrl = t.block.ctrl → u.block.fault = false →
    exec .fin u = .next v →
    t.block.acc = s.block.acc ∧ v.block.res = t.block.res ∧ v.block.folded = t.block.folded ∧
      v.block.cpld = t.block.cpld ∧ v.block.done = t.block.done

/-- The canonical sequence of R149, from any state at all, for every header and every payload whose sum fits: the run ends well, `ACC`
holds the document's sum (R94), and `RES` is that sum folded and complemented as the mode bits say (R105, R107). -/
def Obligations.CanonicalSequenceGivesTheChecksum : Prop :=
  ∀ (s : State) (sport dport len sip0 sip1 dip0 dip1 : Word) (payload : List (Byte × Byte)),
    let p := s.block.ctrl.ippad
    let total := sport.toNat + dport.toNat + len.toNat + len.toNat + 0x0011 +
      (packIp (sip0.extractLsb' 8 8) (sip0.extractLsb' 0 8) p).toNat +
      (packIp (dip0.extractLsb' 8 8) (dip0.extractLsb' 0 8) p).toNat +
      (packIp (sip1.extractLsb' 8 8) (sip1.extractLsb' 0 8) p).toNat +
      (packIp (dip1.extractLsb' 8 8) (dip1.extractLsb' 0 8) p).toNat +
      (payload.map fun b => b.1.toNat * 256 + b.2.toNat).sum
    total < 2 ^ s.cfg.accw →
    ∃ t : State,
      s.perform ([.init, .wr 3#4 sip0, .wr 4#4 sip1, .wr 5#4 dip0, .wr 6#4 dip1, .wr 0#4 sport, .wr 1#4 dport,
        .wr 2#4 len, .hdr] ++ (payload.flatMap fun b => [.pushb b.1, .pushb b.2]) ++ [.fin]) = .next t ∧
      t.block.endsWell = true ∧ t.block.acc.toNat = total ∧
      (total ≤ 0xFFFF → t.block.res.toNat = if s.block.ctrl.cplall then 0xFFFF - total else total) ∧
      (0xFFFF < total → s.block.ctrl.foldloop = false →
        t.block.res.toNat = 0xFFFF - (total % 65536 + total / 65536) % 65536) ∧
      (0xFFFF < total → s.block.ctrl.foldloop = true →
        t.block.res.toNat = 0xFFFF - fold1 (total % 65536 + total / 65536))

/-! ### The listings' assembler (spec/30_encoding.md R65) -/

/-- The assembler of R65: the operands that name a register, by name and as `r0` to `r15`; the word of each of the nine commands as its
listing line writes it; and an operand that does not fit its field makes the assembler answer nothing at all: it never truncates. -/
def Obligations.AssemblerNeverTruncates : Prop :=
  let registers : List (String × Reg × Nat) :=
    [("SPORT", .sport, 0), ("DPORT", .dport, 1), ("LEN", .len, 2), ("SIP0", .sip0, 3), ("SIP1", .sip1, 4), ("DIP0", .dip0, 5),
      ("DIP1", .dip1, 6), ("CTRL", .ctrl, 7), ("STATUS", .status, 8), ("ACCL", .accl, 9), ("ACCH", .acch, 10),
      ("RES", .res, 11), ("PKB", .pkb, 12)]
  (∀ reg : Reg, ∃ p ∈ registers, p.2.1 = reg) ∧
  (∀ p ∈ registers, register? p.1.toList = some (.named p.2.1)) ∧
  (∀ p ∈ ["r0", "r1", "r2", "r3", "r4", "r5", "r6", "r7", "r8", "r9", "r10", "r11", "r12", "r13", "r14", "r15"].zipIdx,
    register? p.1.toList = some (.numbered p.2)) ∧
  (∃ i, assemble .nop = some [i] ∧ encode i = 0x000000#24) ∧
  (∃ i, assemble .init = some [i] ∧ encode i = 0x100000#24) ∧
  (∃ i, assemble .hdr = some [i] ∧ encode i = 0x700000#24) ∧
  (∃ i, assemble .fin = some [i] ∧ encode i = 0x800000#24) ∧
  (∀ p ∈ registers, ∀ j : Nat,
    (j < 65536 →
      ∃ i, assemble (.wr (.named p.2.1) j) = some [i] ∧ (encode i).toNat = 0x200000 + p.2.2 * 65536 + j) ∧
    (65536 ≤ j → assemble (.wr (.named p.2.1) j) = none) ∧
    ∃ i, assemble (.rd (.named p.2.1)) = some [i] ∧ (encode i).toNat = 0x300000 + p.2.2 * 65536) ∧
  ∀ k j : Nat,
    (k < 16 → j < 65536 →
      ∃ i, assemble (.wr (.numbered k) j) = some [i] ∧ (encode i).toNat = 0x200000 + k * 65536 + j) ∧
    (16 ≤ k ∨ 65536 ≤ j → assemble (.wr (.numbered k) j) = none) ∧
    (k < 16 → ∃ i, assemble (.rd (.numbered k)) = some [i] ∧ (encode i).toNat = 0x300000 + k * 65536) ∧
    (16 ≤ k → assemble (.rd (.numbered k)) = none) ∧
    (j < 65536 → ∃ i, assemble (.addw j) = some [i] ∧ (encode i).toNat = 0x400000 + j) ∧
    (65536 ≤ j → assemble (.addw j) = none) ∧
    (k < 256 → j < 256 → ∃ i, assemble (.pkip k j) = some [i] ∧ (encode i).toNat = 0x500000 + k * 256 + j) ∧
    (256 ≤ k ∨ 256 ≤ j → assemble (.pkip k j) = none) ∧
    (j < 256 → ∃ i, assemble (.pushb j) = some [i] ∧ (encode i).toNat = 0x600000 + j) ∧
    (256 ≤ j → assemble (.pushb j) = none)
end

