-- ==== Sys2Proof/Laws/Decode.lean ====
section
/-! SUPPORT. The fields of a command word, and the two bytes of a word: what goes in comes out. Proofs about encodings cite these
lemmas and never look at single bits. -/

namespace Sys2Proof

theorem wordOf_toNat (op : BitVec 4) (rn : RegNum) (imm : Word) :
    (wordOf op rn imm).toNat = op.toNat * 2 ^ 20 + rn.toNat * 2 ^ 16 + imm.toNat := by
  have h1 : (op ++ rn).toNat = op.toNat * 2 ^ 4 + rn.toNat := by
    rw [BitVec.toNat_append, ← Nat.shiftLeft_add_eq_or_of_lt rn.isLt, Nat.shiftLeft_eq]
  have h2 : (op ++ rn ++ imm).toNat = (op ++ rn).toNat * 2 ^ 16 + imm.toNat := by
    rw [BitVec.toNat_append, ← Nat.shiftLeft_add_eq_or_of_lt imm.isLt, Nat.shiftLeft_eq]
  have h3 : (wordOf op rn imm).toNat = (op ++ rn ++ imm).toNat := rfl
  rw [h3, h2, h1, Nat.add_mul, Nat.mul_assoc, ← Nat.pow_add]

@[simp] theorem opField_wordOf (op : BitVec 4) (rn : RegNum) (imm : Word) : opField (wordOf op rn imm) = op := by
  apply BitVec.eq_of_toNat_eq
  simp only [opField, BitVec.extractLsb'_toNat, wordOf_toNat, Nat.shiftRight_eq_div_pow]
  omega

@[simp] theorem rnField_wordOf (op : BitVec 4) (rn : RegNum) (imm : Word) : rnField (wordOf op rn imm) = rn := by
  apply BitVec.eq_of_toNat_eq
  simp only [rnField, BitVec.extractLsb'_toNat, wordOf_toNat, Nat.shiftRight_eq_div_pow]
  omega

@[simp] theorem immField_wordOf (op : BitVec 4) (rn : RegNum) (imm : Word) : immField (wordOf op rn imm) = imm := by
  apply BitVec.eq_of_toNat_eq
  simp only [immField, BitVec.extractLsb'_toNat, wordOf_toNat, Nat.shiftRight_eq_div_pow]
  omega

/-- A word is its three fields. -/
theorem wordOf_fields (c : CmdWord) : wordOf (opField c) (rnField c) (immField c) = c := by
  apply BitVec.eq_of_toNat_eq
  simp only [wordOf_toNat, opField, rnField, immField, BitVec.extractLsb'_toNat, Nat.shiftRight_eq_div_pow]
  omega

/-- Every word is built from three fields. -/
theorem exists_wordOf (c : CmdWord) : ∃ op rn imm, c = wordOf op rn imm := ⟨_, _, _, (wordOf_fields c).symm⟩

/-- Words built from fields are equal exactly when their fields are. -/
theorem wordOf_inj (op op' : BitVec 4) (rn rn' : RegNum) (imm imm' : Word) :
    wordOf op rn imm = wordOf op' rn' imm' ↔ op = op' ∧ rn = rn' ∧ imm = imm' := by
  constructor
  · intro h
    exact ⟨by simpa using congrArg opField h, by simpa using congrArg rnField h, by simpa using congrArg immField h⟩
  · rintro ⟨rfl, rfl, rfl⟩
    rfl

/-- A word built from fields, masked field by field. -/
theorem wordOf_and (op op' : BitVec 4) (rn rn' : RegNum) (imm imm' : Word) :
    wordOf op rn imm &&& wordOf op' rn' imm' = wordOf (op &&& op') (rn &&& rn') (imm &&& imm') := by
  simp only [wordOf]
  rw [BitVec.and_append, BitVec.and_append]

/-- The decoder on a word built from fields. -/
theorem decode_wordOf (op : BitVec 4) (rn : RegNum) (imm : Word) :
    decode (wordOf op rn imm) =
      match op with
      | 0x0#4 => whenZero (rn == 0#4 && imm == 0#16) .nop
      | 0x1#4 => whenZero (rn == 0#4 && imm == 0#16) .init
      | 0x2#4 => .command (.wr rn imm)
      | 0x3#4 => whenZero (imm == 0#16) (.rd rn)
      | 0x4#4 => whenZero (rn == 0#4) (.addw imm)
      | 0x5#4 => whenZero (rn == 0#4) (.pkip (highByte imm) (lowByte imm))
      | 0x6#4 => whenZero (rn == 0#4 && highByte imm == 0#8) (.pushb (lowByte imm))
      | 0x7#4 => whenZero (rn == 0#4 && imm == 0#16) .hdr
      | 0x8#4 => whenZero (rn == 0#4 && imm == 0#16) .fin
      | _ => .illegal .reservedOpcode := by
  simp only [decode, opField_wordOf, rnField_wordOf, immField_wordOf] <;> rfl

/-- When the must-be-zero check answers a command. -/
theorem whenZero_eq_command_iff (z : Bool) (i j : Instr) : whenZero z i = .command j ↔ z = true ∧ i = j := by
  cases z <;> simp [whenZero]

/-- When the must-be-zero check makes the word illegal. -/
theorem whenZero_eq_illegal_iff (z : Bool) (i : Instr) (why : IllegalWord) :
    whenZero z i = .illegal why ↔ z = false ∧ why = .reservedField := by
  cases z <;> simp [whenZero, eq_comm]

theorem append_toNat (a b : Byte) : (a ++ b : Word).toNat = a.toNat * 256 + b.toNat := by
  rw [BitVec.toNat_append, ← Nat.shiftLeft_add_eq_or_of_lt b.isLt, Nat.shiftLeft_eq]

@[simp] theorem highByte_append (a b : Byte) : highByte (a ++ b) = a := by
  apply BitVec.eq_of_toNat_eq
  simp only [highByte, BitVec.extractLsb'_toNat, append_toNat, Nat.shiftRight_eq_div_pow]
  omega

@[simp] theorem lowByte_append (a b : Byte) : lowByte (a ++ b) = b := by
  apply BitVec.eq_of_toNat_eq
  simp only [lowByte, BitVec.extractLsb'_toNat, append_toNat, Nat.shiftRight_eq_div_pow]
  omega

/-- A 16-bit word is its two bytes. -/
theorem highByte_append_lowByte (w : Word) : (highByte w ++ lowByte w : Word) = w := by
  apply BitVec.eq_of_toNat_eq
  simp only [append_toNat, highByte, lowByte, BitVec.extractLsb'_toNat, Nat.shiftRight_eq_div_pow]
  omega

end Sys2Proof
end

