-- ==== Sys2Proof/Laws/State.lean ====
section
/-! SUPPORT. One lemma for each field of the block under each named update, and for each field of the state: no later proof unfolds
an update. -/

namespace Sys2Proof.Machine

section updates
variable (b : Block) (s : State)
@[simp] theorem State.setBlock_cfg : (s.setBlock b).cfg = s.cfg := rfl
@[simp] theorem State.setBlock_block : (s.setBlock b).block = b := rfl
@[simp] theorem State.setBlock_inbox : (s.setBlock b).inbox = s.inbox := rfl
@[simp] theorem State.setInbox_cfg (es : List Event) : (s.setInbox es).cfg = s.cfg := rfl
@[simp] theorem State.setInbox_block (es : List Event) : (s.setInbox es).block = s.block := rfl
@[simp] theorem State.setInbox_inbox (es : List Event) : (s.setInbox es).inbox = es := rfl
@[simp] theorem State.takeReset_cfg : s.takeReset.cfg = s.cfg := rfl
@[simp] theorem State.takeReset_block : s.takeReset.block = Block.reset := rfl
@[simp] theorem State.takeReset_inbox : s.takeReset.inbox = s.inbox := rfl

/-! `setAcc` -/

@[simp] theorem Block.setAcc_sport (a : BitVec 32) : (b.setAcc a).sport = b.sport := rfl
@[simp] theorem Block.setAcc_dport (a : BitVec 32) : (b.setAcc a).dport = b.dport := rfl
@[simp] theorem Block.setAcc_len (a : BitVec 32) : (b.setAcc a).len = b.len := rfl
@[simp] theorem Block.setAcc_sip0 (a : BitVec 32) : (b.setAcc a).sip0 = b.sip0 := rfl
@[simp] theorem Block.setAcc_sip1 (a : BitVec 32) : (b.setAcc a).sip1 = b.sip1 := rfl
@[simp] theorem Block.setAcc_dip0 (a : BitVec 32) : (b.setAcc a).dip0 = b.dip0 := rfl
@[simp] theorem Block.setAcc_dip1 (a : BitVec 32) : (b.setAcc a).dip1 = b.dip1 := rfl
@[simp] theorem Block.setAcc_ctrl (a : BitVec 32) : (b.setAcc a).ctrl = b.ctrl := rfl
@[simp] theorem Block.setAcc_acc (a : BitVec 32) : (b.setAcc a).acc = a := rfl
@[simp] theorem Block.setAcc_pkb (a : BitVec 32) : (b.setAcc a).pkb = b.pkb := rfl
@[simp] theorem Block.setAcc_pkv (a : BitVec 32) : (b.setAcc a).pkv = b.pkv := rfl
@[simp] theorem Block.setAcc_res (a : BitVec 32) : (b.setAcc a).res = b.res := rfl
@[simp] theorem Block.setAcc_done (a : BitVec 32) : (b.setAcc a).done = b.done := rfl
@[simp] theorem Block.setAcc_folded (a : BitVec 32) : (b.setAcc a).folded = b.folded := rfl
@[simp] theorem Block.setAcc_cpld (a : BitVec 32) : (b.setAcc a).cpld = b.cpld := rfl
@[simp] theorem Block.setAcc_fOvf (a : BitVec 32) : (b.setAcc a).fOvf = b.fOvf := rfl
@[simp] theorem Block.setAcc_fOdd (a : BitVec 32) : (b.setAcc a).fOdd = b.fOdd := rfl
@[simp] theorem Block.setAcc_fIll (a : BitVec 32) : (b.setAcc a).fIll = b.fIll := rfl
@[simp] theorem Block.setAcc_rdata (a : BitVec 32) : (b.setAcc a).rdata = b.rdata := rfl

/-! `setPacker` -/

@[simp] theorem Block.setPacker_sport (k : Byte) (v : Bool) : (b.setPacker k v).sport = b.sport := rfl
@[simp] theorem Block.setPacker_dport (k : Byte) (v : Bool) : (b.setPacker k v).dport = b.dport := rfl
@[simp] theorem Block.setPacker_len (k : Byte) (v : Bool) : (b.setPacker k v).len = b.len := rfl
@[simp] theorem Block.setPacker_sip0 (k : Byte) (v : Bool) : (b.setPacker k v).sip0 = b.sip0 := rfl
@[simp] theorem Block.setPacker_sip1 (k : Byte) (v : Bool) : (b.setPacker k v).sip1 = b.sip1 := rfl
@[simp] theorem Block.setPacker_dip0 (k : Byte) (v : Bool) : (b.setPacker k v).dip0 = b.dip0 := rfl
@[simp] theorem Block.setPacker_dip1 (k : Byte) (v : Bool) : (b.setPacker k v).dip1 = b.dip1 := rfl
@[simp] theorem Block.setPacker_ctrl (k : Byte) (v : Bool) : (b.setPacker k v).ctrl = b.ctrl := rfl
@[simp] theorem Block.setPacker_acc (k : Byte) (v : Bool) : (b.setPacker k v).acc = b.acc := rfl
@[simp] theorem Block.setPacker_pkb (k : Byte) (v : Bool) : (b.setPacker k v).pkb = k := rfl
@[simp] theorem Block.setPacker_pkv (k : Byte) (v : Bool) : (b.setPacker k v).pkv = v := rfl
@[simp] theorem Block.setPacker_res (k : Byte) (v : Bool) : (b.setPacker k v).res = b.res := rfl
@[simp] theorem Block.setPacker_done (k : Byte) (v : Bool) : (b.setPacker k v).done = b.done := rfl
@[simp] theorem Block.setPacker_folded (k : Byte) (v : Bool) : (b.setPacker k v).folded = b.folded := rfl
@[simp] theorem Block.setPacker_cpld (k : Byte) (v : Bool) : (b.setPacker k v).cpld = b.cpld := rfl
@[simp] theorem Block.setPacker_fOvf (k : Byte) (v : Bool) : (b.setPacker k v).fOvf = b.fOvf := rfl
@[simp] theorem Block.setPacker_fOdd (k : Byte) (v : Bool) : (b.setPacker k v).fOdd = b.fOdd := rfl
@[simp] theorem Block.setPacker_fIll (k : Byte) (v : Bool) : (b.setPacker k v).fIll = b.fIll := rfl
@[simp] theorem Block.setPacker_rdata (k : Byte) (v : Bool) : (b.setPacker k v).rdata = b.rdata := rfl

/-! `setCtrl` -/

@[simp] theorem Block.setCtrl_sport (c : Ctrl) : (b.setCtrl c).sport = b.sport := rfl
@[simp] theorem Block.setCtrl_dport (c : Ctrl) : (b.setCtrl c).dport = b.dport := rfl
@[simp] theorem Block.setCtrl_len (c : Ctrl) : (b.setCtrl c).len = b.len := rfl
@[simp] theorem Block.setCtrl_sip0 (c : Ctrl) : (b.setCtrl c).sip0 = b.sip0 := rfl
@[simp] theorem Block.setCtrl_sip1 (c : Ctrl) : (b.setCtrl c).sip1 = b.sip1 := rfl
@[simp] theorem Block.setCtrl_dip0 (c : Ctrl) : (b.setCtrl c).dip0 = b.dip0 := rfl
@[simp] theorem Block.setCtrl_dip1 (c : Ctrl) : (b.setCtrl c).dip1 = b.dip1 := rfl
@[simp] theorem Block.setCtrl_ctrl (c : Ctrl) : (b.setCtrl c).ctrl = c := rfl
@[simp] theorem Block.setCtrl_acc (c : Ctrl) : (b.setCtrl c).acc = b.acc := rfl
@[simp] theorem Block.setCtrl_pkb (c : Ctrl) : (b.setCtrl c).pkb = b.pkb := rfl
@[simp] theorem Block.setCtrl_pkv (c : Ctrl) : (b.setCtrl c).pkv = b.pkv := rfl
@[simp] theorem Block.setCtrl_res (c : Ctrl) : (b.setCtrl c).res = b.res := rfl
@[simp] theorem Block.setCtrl_done (c : Ctrl) : (b.setCtrl c).done = b.done := rfl
@[simp] theorem Block.setCtrl_folded (c : Ctrl) : (b.setCtrl c).folded = b.folded := rfl
@[simp] theorem Block.setCtrl_cpld (c : Ctrl) : (b.setCtrl c).cpld = b.cpld := rfl
@[simp] theorem Block.setCtrl_fOvf (c : Ctrl) : (b.setCtrl c).fOvf = b.fOvf := rfl
@[simp] theorem Block.setCtrl_fOdd (c : Ctrl) : (b.setCtrl c).fOdd = b.fOdd := rfl
@[simp] theorem Block.setCtrl_fIll (c : Ctrl) : (b.setCtrl c).fIll = b.fIll := rfl
@[simp] theorem Block.setCtrl_rdata (c : Ctrl) : (b.setCtrl c).rdata = b.rdata := rfl

/-! `setRdata` -/

@[simp] theorem Block.setRdata_sport (w : Word) : (b.setRdata w).sport = b.sport := rfl
@[simp] theorem Block.setRdata_dport (w : Word) : (b.setRdata w).dport = b.dport := rfl
@[simp] theorem Block.setRdata_len (w : Word) : (b.setRdata w).len = b.len := rfl
@[simp] theorem Block.setRdata_sip0 (w : Word) : (b.setRdata w).sip0 = b.sip0 := rfl
@[simp] theorem Block.setRdata_sip1 (w : Word) : (b.setRdata w).sip1 = b.sip1 := rfl
@[simp] theorem Block.setRdata_dip0 (w : Word) : (b.setRdata w).dip0 = b.dip0 := rfl
@[simp] theorem Block.setRdata_dip1 (w : Word) : (b.setRdata w).dip1 = b.dip1 := rfl
@[simp] theorem Block.setRdata_ctrl (w : Word) : (b.setRdata w).ctrl = b.ctrl := rfl
@[simp] theorem Block.setRdata_acc (w : Word) : (b.setRdata w).acc = b.acc := rfl
@[simp] theorem Block.setRdata_pkb (w : Word) : (b.setRdata w).pkb = b.pkb := rfl
@[simp] theorem Block.setRdata_pkv (w : Word) : (b.setRdata w).pkv = b.pkv := rfl
@[simp] theorem Block.setRdata_res (w : Word) : (b.setRdata w).res = b.res := rfl
@[simp] theorem Block.setRdata_done (w : Word) : (b.setRdata w).done = b.done := rfl
@[simp] theorem Block.setRdata_folded (w : Word) : (b.setRdata w).folded = b.folded := rfl
@[simp] theorem Block.setRdata_cpld (w : Word) : (b.setRdata w).cpld = b.cpld := rfl
@[simp] theorem Block.setRdata_fOvf (w : Word) : (b.setRdata w).fOvf = b.fOvf := rfl
@[simp] theorem Block.setRdata_fOdd (w : Word) : (b.setRdata w).fOdd = b.fOdd := rfl
@[simp] theorem Block.setRdata_fIll (w : Word) : (b.setRdata w).fIll = b.fIll := rfl
@[simp] theorem Block.setRdata_rdata (w : Word) : (b.setRdata w).rdata = w := rfl

/-! `setResult` -/

@[simp] theorem Block.setResult_sport (r : Word) (f c : Bool) : (b.setResult r f c).sport = b.sport := rfl
@[simp] theorem Block.setResult_dport (r : Word) (f c : Bool) : (b.setResult r f c).dport = b.dport := rfl
@[simp] theorem Block.setResult_len (r : Word) (f c : Bool) : (b.setResult r f c).len = b.len := rfl
@[simp] theorem Block.setResult_sip0 (r : Word) (f c : Bool) : (b.setResult r f c).sip0 = b.sip0 := rfl
@[simp] theorem Block.setResult_sip1 (r : Word) (f c : Bool) : (b.setResult r f c).sip1 = b.sip1 := rfl
@[simp] theorem Block.setResult_dip0 (r : Word) (f c : Bool) : (b.setResult r f c).dip0 = b.dip0 := rfl
@[simp] theorem Block.setResult_dip1 (r : Word) (f c : Bool) : (b.setResult r f c).dip1 = b.dip1 := rfl
@[simp] theorem Block.setResult_ctrl (r : Word) (f c : Bool) : (b.setResult r f c).ctrl = b.ctrl := rfl
@[simp] theorem Block.setResult_acc (r : Word) (f c : Bool) : (b.setResult r f c).acc = b.acc := rfl
@[simp] theorem Block.setResult_pkb (r : Word) (f c : Bool) : (b.setResult r f c).pkb = b.pkb := rfl
@[simp] theorem Block.setResult_pkv (r : Word) (f c : Bool) : (b.setResult r f c).pkv = b.pkv := rfl
@[simp] theorem Block.setResult_res (r : Word) (f c : Bool) : (b.setResult r f c).res = r := rfl
@[simp] theorem Block.setResult_done (r : Word) (f c : Bool) : (b.setResult r f c).done = true := rfl
@[simp] theorem Block.setResult_folded (r : Word) (f c : Bool) : (b.setResult r f c).folded = f := rfl
@[simp] theorem Block.setResult_cpld (r : Word) (f c : Bool) : (b.setResult r f c).cpld = c := rfl
@[simp] theorem Block.setResult_fOvf (r : Word) (f c : Bool) : (b.setResult r f c).fOvf = b.fOvf := rfl
@[simp] theorem Block.setResult_fOdd (r : Word) (f c : Bool) : (b.setResult r f c).fOdd = b.fOdd := rfl
@[simp] theorem Block.setResult_fIll (r : Word) (f c : Bool) : (b.setResult r f c).fIll = b.fIll := rfl
@[simp] theorem Block.setResult_rdata (r : Word) (f c : Bool) : (b.setResult r f c).rdata = b.rdata := rfl

/-! `startRun` -/

@[simp] theorem Block.startRun_sport : (b.startRun).sport = b.sport := rfl
@[simp] theorem Block.startRun_dport : (b.startRun).dport = b.dport := rfl
@[simp] theorem Block.startRun_len : (b.startRun).len = b.len := rfl
@[simp] theorem Block.startRun_sip0 : (b.startRun).sip0 = b.sip0 := rfl
@[simp] theorem Block.startRun_sip1 : (b.startRun).sip1 = b.sip1 := rfl
@[simp] theorem Block.startRun_dip0 : (b.startRun).dip0 = b.dip0 := rfl
@[simp] theorem Block.startRun_dip1 : (b.startRun).dip1 = b.dip1 := rfl
@[simp] theorem Block.startRun_ctrl : (b.startRun).ctrl = b.ctrl := rfl
@[simp] theorem Block.startRun_acc : (b.startRun).acc = 0 := rfl
@[simp] theorem Block.startRun_pkb : (b.startRun).pkb = 0 := rfl
@[simp] theorem Block.startRun_pkv : (b.startRun).pkv = false := rfl
@[simp] theorem Block.startRun_res : (b.startRun).res = 0 := rfl
@[simp] theorem Block.startRun_done : (b.startRun).done = false := rfl
@[simp] theorem Block.startRun_folded : (b.startRun).folded = false := rfl
@[simp] theorem Block.startRun_cpld : (b.startRun).cpld = false := rfl
@[simp] theorem Block.startRun_fOvf : (b.startRun).fOvf = false := rfl
@[simp] theorem Block.startRun_fOdd : (b.startRun).fOdd = false := rfl
@[simp] theorem Block.startRun_fIll : (b.startRun).fIll = false := rfl
@[simp] theorem Block.startRun_rdata : (b.startRun).rdata = b.rdata := rfl

/-! `raise .ovf` -/

@[simp] theorem Block.raise_ovf_sport : (b.raise .ovf).sport = b.sport := rfl
@[simp] theorem Block.raise_ovf_dport : (b.raise .ovf).dport = b.dport := rfl
@[simp] theorem Block.raise_ovf_len : (b.raise .ovf).len = b.len := rfl
@[simp] theorem Block.raise_ovf_sip0 : (b.raise .ovf).sip0 = b.sip0 := rfl
@[simp] theorem Block.raise_ovf_sip1 : (b.raise .ovf).sip1 = b.sip1 := rfl
@[simp] theorem Block.raise_ovf_dip0 : (b.raise .ovf).dip0 = b.dip0 := rfl
@[simp] theorem Block.raise_ovf_dip1 : (b.raise .ovf).dip1 = b.dip1 := rfl
@[simp] theorem Block.raise_ovf_ctrl : (b.raise .ovf).ctrl = b.ctrl := rfl
@[simp] theorem Block.raise_ovf_acc : (b.raise .ovf).acc = b.acc := rfl
@[simp] theorem Block.raise_ovf_pkb : (b.raise .ovf).pkb = b.pkb := rfl
@[simp] theorem Block.raise_ovf_pkv : (b.raise .ovf).pkv = b.pkv := rfl
@[simp] theorem Block.raise_ovf_res : (b.raise .ovf).res = b.res := rfl
@[simp] theorem Block.raise_ovf_done : (b.raise .ovf).done = b.done := rfl
@[simp] theorem Block.raise_ovf_folded : (b.raise .ovf).folded = b.folded := rfl
@[simp] theorem Block.raise_ovf_cpld : (b.raise .ovf).cpld = b.cpld := rfl
@[simp] theorem Block.raise_ovf_fOvf : (b.raise .ovf).fOvf = true := rfl
@[simp] theorem Block.raise_ovf_fOdd : (b.raise .ovf).fOdd = b.fOdd := rfl
@[simp] theorem Block.raise_ovf_fIll : (b.raise .ovf).fIll = b.fIll := rfl
@[simp] theorem Block.raise_ovf_rdata : (b.raise .ovf).rdata = b.rdata := rfl

/-! `raise .odd` -/

@[simp] theorem Block.raise_odd_sport : (b.raise .odd).sport = b.sport := rfl
@[simp] theorem Block.raise_odd_dport : (b.raise .odd).dport = b.dport := rfl
@[simp] theorem Block.raise_odd_len : (b.raise .odd).len = b.len := rfl
@[simp] theorem Block.raise_odd_sip0 : (b.raise .odd).sip0 = b.sip0 := rfl
@[simp] theorem Block.raise_odd_sip1 : (b.raise .odd).sip1 = b.sip1 := rfl
@[simp] theorem Block.raise_odd_dip0 : (b.raise .odd).dip0 = b.dip0 := rfl
@[simp] theorem Block.raise_odd_dip1 : (b.raise .odd).dip1 = b.dip1 := rfl
@[simp] theorem Block.raise_odd_ctrl : (b.raise .odd).ctrl = b.ctrl := rfl
@[simp] theorem Block.raise_odd_acc : (b.raise .odd).acc = b.acc := rfl
@[simp] theorem Block.raise_odd_pkb : (b.raise .odd).pkb = b.pkb := rfl
@[simp] theorem Block.raise_odd_pkv : (b.raise .odd).pkv = b.pkv := rfl
@[simp] theorem Block.raise_odd_res : (b.raise .odd).res = b.res := rfl
@[simp] theorem Block.raise_odd_done : (b.raise .odd).done = b.done := rfl
@[simp] theorem Block.raise_odd_folded : (b.raise .odd).folded = b.folded := rfl
@[simp] theorem Block.raise_odd_cpld : (b.raise .odd).cpld = b.cpld := rfl
@[simp] theorem Block.raise_odd_fOvf : (b.raise .odd).fOvf = b.fOvf := rfl
@[simp] theorem Block.raise_odd_fOdd : (b.raise .odd).fOdd = true := rfl
@[simp] theorem Block.raise_odd_fIll : (b.raise .odd).fIll = b.fIll := rfl
@[simp] theorem Block.raise_odd_rdata : (b.raise .odd).rdata = b.rdata := rfl

/-! `raise .ill` -/

@[simp] theorem Block.raise_ill_sport : (b.raise .ill).sport = b.sport := rfl
@[simp] theorem Block.raise_ill_dport : (b.raise .ill).dport = b.dport := rfl
@[simp] theorem Block.raise_ill_len : (b.raise .ill).len = b.len := rfl
@[simp] theorem Block.raise_ill_sip0 : (b.raise .ill).sip0 = b.sip0 := rfl
@[simp] theorem Block.raise_ill_sip1 : (b.raise .ill).sip1 = b.sip1 := rfl
@[simp] theorem Block.raise_ill_dip0 : (b.raise .ill).dip0 = b.dip0 := rfl
@[simp] theorem Block.raise_ill_dip1 : (b.raise .ill).dip1 = b.dip1 := rfl
@[simp] theorem Block.raise_ill_ctrl : (b.raise .ill).ctrl = b.ctrl := rfl
@[simp] theorem Block.raise_ill_acc : (b.raise .ill).acc = b.acc := rfl
@[simp] theorem Block.raise_ill_pkb : (b.raise .ill).pkb = b.pkb := rfl
@[simp] theorem Block.raise_ill_pkv : (b.raise .ill).pkv = b.pkv := rfl
@[simp] theorem Block.raise_ill_res : (b.raise .ill).res = b.res := rfl
@[simp] theorem Block.raise_ill_done : (b.raise .ill).done = b.done := rfl
@[simp] theorem Block.raise_ill_folded : (b.raise .ill).folded = b.folded := rfl
@[simp] theorem Block.raise_ill_cpld : (b.raise .ill).cpld = b.cpld := rfl
@[simp] theorem Block.raise_ill_fOvf : (b.raise .ill).fOvf = b.fOvf := rfl
@[simp] theorem Block.raise_ill_fOdd : (b.raise .ill).fOdd = b.fOdd := rfl
@[simp] theorem Block.raise_ill_fIll : (b.raise .ill).fIll = true := rfl
@[simp] theorem Block.raise_ill_rdata : (b.raise .ill).rdata = b.rdata := rfl

/-! `fault` under each update -/

@[simp] theorem Block.setAcc_fault (a : BitVec 32) : (b.setAcc a).fault = b.fault := rfl

@[simp] theorem Block.setPacker_fault (k : Byte) (v : Bool) : (b.setPacker k v).fault = b.fault := rfl

@[simp] theorem Block.setCtrl_fault (c : Ctrl) : (b.setCtrl c).fault = b.fault := rfl

@[simp] theorem Block.setRdata_fault (w : Word) : (b.setRdata w).fault = b.fault := rfl

@[simp] theorem Block.setResult_fault (r : Word) (f c : Bool) : (b.setResult r f c).fault = b.fault := rfl

@[simp] theorem Block.startRun_fault : b.startRun.fault = false := rfl

@[simp] theorem Block.raise_fault (f : FaultBit) : (b.raise f).fault = true := by
  cases f <;> simp [Block.fault]

/-- No fault pending means each of the three bits is 0. -/
theorem Block.fault_eq_false_iff :
    b.fault = false ↔ b.fOvf = false ∧ b.fOdd = false ∧ b.fIll = false := by
  simp [Block.fault, and_assoc]

end updates

end Sys2Proof.Machine
end

