-- ==== Sys2Proof/Laws/Ops.lean ====
section
/-! SUPPORT. What each shared operation can do, said once: later proofs cite these lemmas and do not unfold the operation. -/

namespace Sys2Proof.Machine

/-! ### The gate -/

theorem State.attempt_of_fault {s : State} (h : s.block.fault = true) (act : Except FaultBit Block) :
    s.attempt act = .next s := by
  simp [State.attempt, h]

theorem State.attempt_ok {s : State} (h : s.block.fault = false) (b : Block) :
    s.attempt (.ok b) = .next (s.setBlock b) := by
  simp [State.attempt, h, Block.settle]

theorem State.attempt_error {s : State} (h : s.block.fault = false) (f : FaultBit) :
    s.attempt (.error f) = .next (s.setBlock (s.block.raise f)) := by
  simp [State.attempt, h, Block.settle]

/-- Everything a gated command can do. -/
theorem State.attempt_cases {s t : State} {act : Except FaultBit Block} (h : s.attempt act = .next t) :
    (s.block.fault = true ∧ t = s) ∨
    (s.block.fault = false ∧ ∃ b, act = .ok b ∧ t = s.setBlock b) ∨
    (s.block.fault = false ∧ ∃ f, act = .error f ∧ t = s.setBlock (s.block.raise f)) := by
  cases hf : s.block.fault with
  | true =>
    rw [State.attempt_of_fault hf] at h
    exact .inl ⟨rfl, by injection h with h; exact h.symm⟩
  | false =>
    cases act with
    | ok b =>
      rw [State.attempt_ok hf] at h
      exact .inr (.inl ⟨rfl, b, rfl, by injection h with h; exact h.symm⟩)
    | error f =>
      rw [State.attempt_error hf] at h
      exact .inr (.inr ⟨rfl, f, rfl, by injection h with h; exact h.symm⟩)

/-! ### Accumulating -/

/-- The fold of exact additions is the accumulator plus the sum of the words. -/
theorem foldl_accAdd (ws : List Word) (a : Nat) :
    ws.foldl accAdd a = a + (ws.map BitVec.toNat).sum := by
  induction ws generalizing a with
  | nil => simp
  | cons w ws ih => simp [ih, accAdd, Nat.add_assoc]

/-- No legal accumulator is wider than the 32 bits that hold it. -/
theorem accLimit_le (cfg : Config) : accLimit cfg ≤ 2 ^ 32 :=
  Nat.pow_le_pow_right (by decide) cfg.accw_le

theorem Block.accumulate_ok {cfg : Config} {b : Block} {ws : List Word}
    (h : b.acc.toNat + (ws.map BitVec.toNat).sum < accLimit cfg) :
    b.accumulate cfg ws = .ok (b.setAcc (BitVec.ofNat 32 (b.acc.toNat + (ws.map BitVec.toNat).sum))) := by
  simp [Block.accumulate, foldl_accAdd, Nat.not_le.mpr h]

theorem Block.accumulate_error {cfg : Config} {b : Block} {ws : List Word}
    (h : accLimit cfg ≤ b.acc.toNat + (ws.map BitVec.toNat).sum) :
    b.accumulate cfg ws = .error .ovf := by
  simp [Block.accumulate, foldl_accAdd, h]

/-- Everything accumulating can do: the exact sum stored, below the limit, or `F_OVF`. -/
theorem Block.accumulate_cases (cfg : Config) (b : Block) (ws : List Word) :
    (∃ a : BitVec 32, a.toNat = b.acc.toNat + (ws.map BitVec.toNat).sum ∧ a.toNat < accLimit cfg ∧
      b.accumulate cfg ws = .ok (b.setAcc a)) ∨
    (accLimit cfg ≤ b.acc.toNat + (ws.map BitVec.toNat).sum ∧ b.accumulate cfg ws = .error .ovf) := by
  rcases Nat.lt_or_ge (b.acc.toNat + (ws.map BitVec.toNat).sum) (accLimit cfg) with h | h
  · have hlt : b.acc.toNat + (ws.map BitVec.toNat).sum < 2 ^ 32 := lt_of_lt_of_le h (accLimit_le cfg)
    have ha : (BitVec.ofNat 32 (b.acc.toNat + (ws.map BitVec.toNat).sum)).toNat =
        b.acc.toNat + (ws.map BitVec.toNat).sum := by
      rw [BitVec.toNat_ofNat, Nat.mod_eq_of_lt hlt]
    exact .inl ⟨_, ha, by rw [ha]; exact h, Block.accumulate_ok h⟩
  · exact .inr ⟨h, Block.accumulate_error h⟩

/-- Everything a pushed byte can do: held; paired and added; or `F_OVF`. -/
theorem Block.pushByte_cases (cfg : Config) (b : Block) (x : Byte) :
    (b.pkv = false ∧ b.pushByte cfg x = .ok (b.setPacker x true)) ∨
    (b.pkv = true ∧ ∃ a : BitVec 32, a.toNat = b.acc.toNat + (packPl b.pkb x).toNat ∧ a.toNat < accLimit cfg ∧
      b.pushByte cfg x = .ok ((b.setAcc a).setPacker 0 false)) ∨
    (b.pkv = true ∧ accLimit cfg ≤ b.acc.toNat + (packPl b.pkb x).toNat ∧ b.pushByte cfg x = .error .ovf) := by
  cases hv : b.pkv with
  | false => exact .inl ⟨rfl, by simp [Block.pushByte, hv]⟩
  | true =>
    rcases Block.accumulate_cases cfg b [packPl b.pkb x] with ⟨a, ha, hlt, he⟩ | ⟨hge, he⟩
    · exact .inr (.inl ⟨rfl, a, by simpa using ha, hlt, by simp [Block.pushByte, hv, he]⟩)
    · exact .inr (.inr ⟨rfl, by simpa using hge, by simp [Block.pushByte, hv, he]⟩)

theorem Block.finish_odd {b : Block} (h : b.pkv = true) : b.finish = .error .odd := by
  simp [Block.finish, h]

theorem Block.finish_even {b : Block} (h : b.pkv = false) :
    b.finish = .ok (b.setResult (finResult b.acc.toNat b.ctrl) (finFolded b.acc.toNat)
      (finCpld b.acc.toNat b.ctrl.cplall)) := by
  simp [Block.finish, h]

/-! ### Registers -/

theorem regOfNumber_eq_none_iff (n : RegNum) : regOfNumber n = none ↔ 13 ≤ n.toNat := by
  revert n
  decide

/-- A successful write changes one field register, or `CTRL`. -/
theorem Block.regWrite_cases {b b' : Block} {r : Reg} {v : Word} (h : b.regWrite r v = some b') :
    (r = .sport ∧ b' = { b with sport := v }) ∨ (r = .dport ∧ b' = { b with dport := v }) ∨
    (r = .len ∧ b' = { b with len := v }) ∨ (r = .sip0 ∧ b' = { b with sip0 := v }) ∨
    (r = .sip1 ∧ b' = { b with sip1 := v }) ∨ (r = .dip0 ∧ b' = { b with dip0 := v }) ∨
    (r = .dip1 ∧ b' = { b with dip1 := v }) ∨
    (r = .ctrl ∧ ∃ c, Ctrl.ofWord v = some c ∧ b' = b.setCtrl c) := by
  cases r <;> simp_all [Block.regWrite, eq_comm]

/-! ### Events -/

theorem State.nextEvent_nil {s : State} (h : s.inbox = []) : s.nextEvent = none := by
  simp [State.nextEvent, h]

theorem State.nextEvent_cons {s : State} {e : Event} {es : List Event} (h : s.inbox = e :: es) :
    s.nextEvent = some (e, s.setInbox es) := by
  simp [State.nextEvent, h]

/-- Presenting one more command puts its word at the head of the inbox. -/
theorem State.present_cons (s : State) (i : Instr) (is : List Instr) :
    s.present (i :: is) = (s.present is).setInbox (.cmd (encode i) :: (s.present is).inbox) := rfl

end Sys2Proof.Machine
end

