-- ==== Sys2Proof/Laws/PerInstr.lean ====
section
/-! SUPPORT. Facts about commands as syntax, one lemma for each constructor. -/

namespace Sys2Proof.Laws.EncodeRow

/-- The word of a command selects the command's own row of the opcode map (spec/30_encoding.md R59). -/
def Statement (i : Instr) : Prop := i.row.selects (encode i) = true

theorem nop : Statement .nop := by unfold Statement; decide

theorem init : Statement .init := by unfold Statement; decide

theorem wr (n : RegNum) (v : Word) : Statement (.wr n v) := by
  have h : (0xF00000 : CmdWord) = wordOf 0xF#4 0#4 0#16 := by decide
  simp only [Statement, OpcodeRow.selects, Instr.row, encode, h, wordOf_and, beq_iff_eq, BitVec.and_zero]
  decide

theorem rd (n : RegNum) : Statement (.rd n) := by
  have h : (0xF0FFFF : CmdWord) = wordOf 0xF#4 0#4 0xFFFF#16 := by decide
  simp only [Statement, OpcodeRow.selects, Instr.row, encode, h, wordOf_and, beq_iff_eq, BitVec.and_zero]
  decide

theorem addw (w : Word) : Statement (.addw w) := by
  have h : (0xFF0000 : CmdWord) = wordOf 0xF#4 0xF#4 0#16 := by decide
  simp only [Statement, OpcodeRow.selects, Instr.row, encode, h, wordOf_and, beq_iff_eq, BitVec.and_zero]
  decide

theorem pkip (o1 o2 : Byte) : Statement (.pkip o1 o2) := by
  have h : (0xFF0000 : CmdWord) = wordOf 0xF#4 0xF#4 0#16 := by decide
  simp only [Statement, OpcodeRow.selects, Instr.row, encode, h, wordOf_and, beq_iff_eq, BitVec.and_zero]
  decide

theorem pushb (b : Byte) : Statement (.pushb b) := by
  have h : (0xFFFF00 : CmdWord) = wordOf 0xF#4 0xF#4 (0xFF#8 ++ 0#8) := by decide
  have hb : (0#8 ++ b : Word) &&& (0xFF#8 ++ 0#8) = 0#16 := by
    rw [BitVec.and_append]; simp
  simp only [Statement, OpcodeRow.selects, Instr.row, encode, h, wordOf_and, beq_iff_eq, hb]
  decide

theorem hdr : Statement .hdr := by unfold Statement; decide

theorem fin : Statement .fin := by unfold Statement; decide

end Sys2Proof.Laws.EncodeRow
end

