-- ==== Sys2Proof/Laws/Step.lean ====
section
/-! SUPPORT. Everything one command and one step can do, said once: a proof about all commands takes `exec_effect` apart and never
unfolds a meaning. -/

namespace Sys2Proof.Machine

/-- What a write of the register with number `n` leaves of the block: all but the field registers and `CTRL` stays, `CTRL` changes
only by number 7, the number is below 8, and a value written to `CTRL` has its reserved bits zero. -/
structure WriteKeeps (n : RegNum) (v : Word) (b b' : Block) : Prop where
  acc : b'.acc = b.acc
  pkb : b'.pkb = b.pkb
  pkv : b'.pkv = b.pkv
  res : b'.res = b.res
  done : b'.done = b.done
  folded : b'.folded = b.folded
  cpld : b'.cpld = b.cpld
  fOvf : b'.fOvf = b.fOvf
  fOdd : b'.fOdd = b.fOdd
  fIll : b'.fIll = b.fIll
  rdata : b'.rdata = b.rdata
  ctrl : b'.ctrl ≠ b.ctrl → n = 7#4
  number : n.toNat < 8
  reserved : n = 7#4 → v.extractLsb' 3 13 = 0#13

/-- Numbers 8 and up name no register that can be written. -/
theorem Block.writeNumber_readOnly {b : Block} {n : RegNum} {v : Word} (h : 8 ≤ n.toNat) : b.writeNumber n v = none := by
  have hn : ∀ n : RegNum, 8 ≤ n.toNat → regOfNumber n = none ∨ regOfNumber n = some .status ∨ regOfNumber n = some .accl ∨
      regOfNumber n = some .acch ∨ regOfNumber n = some .res ∨ regOfNumber n = some .pkb := by decide
  rcases hn n h with h | h | h | h | h | h <;> simp [Block.writeNumber, h, Block.regWrite]

/-- When a write fails. -/
theorem Block.writeNumber_eq_none {b : Block} {n : RegNum} {v : Word} (h : b.writeNumber n v = none) :
    8 ≤ n.toNat ∨ n = 7#4 ∧ v.extractLsb' 3 13 ≠ 0#13 := by
  by_contra hc
  obtain ⟨h1, h2⟩ := not_or.mp hc
  have hn : ∀ n : RegNum, n.toNat < 8 → n = 0#4 ∨ n = 1#4 ∨ n = 2#4 ∨ n = 3#4 ∨ n = 4#4 ∨ n = 5#4 ∨ n = 6#4 ∨ n = 7#4 := by
    decide
  rcases hn n (Nat.lt_of_not_le h1) with rfl | rfl | rfl | rfl | rfl | rfl | rfl | rfl <;>
    simp [Block.writeNumber, regOfNumber, Block.regWrite, Ctrl.ofWord] at h h2
  exact h h2

/-- What a write that succeeds leaves. -/
theorem Block.writeNumber_keeps {b b' : Block} {n : RegNum} {v : Word} (h : b.writeNumber n v = some b') :
    WriteKeeps n v b b' := by
  have hlt : n.toNat < 8 := by
    by_contra hc
    rw [Block.writeNumber_readOnly (Nat.le_of_not_lt hc)] at h
    cases h
  have hres : n = 7#4 → v.extractLsb' 3 13 = 0#13 := by
    rintro rfl
    by_contra hc
    simp [Block.writeNumber, regOfNumber, Block.regWrite, Ctrl.ofWord, hc] at h
  unfold Block.writeNumber at h
  split at h
  · rename_i r hr
    have hctrl : ∀ n : RegNum, regOfNumber n = some .ctrl → n = 7#4 := by decide
    rcases Block.regWrite_cases h with ⟨_, rfl⟩ | ⟨_, rfl⟩ | ⟨_, rfl⟩ | ⟨_, rfl⟩ | ⟨_, rfl⟩ | ⟨_, rfl⟩ | ⟨_, rfl⟩ |
      ⟨rfl, c, _, rfl⟩
    all_goals refine ⟨rfl, rfl, rfl, rfl, rfl, rfl, rfl, rfl, rfl, rfl, rfl, fun hc => ?_, hlt, hres⟩
    all_goals first | exact absurd rfl hc | exact hctrl n hr
  · cases h

/-- Everything a command can do to the state, one constructor for each outcome of each command. -/
inductive Effect (i : Instr) (s : State) : State → Prop
  | same : i = .nop ∨ s.block.fault = true → Effect i s s
  | started : i = .init → Effect i s (s.setBlock s.block.startRun)
  | wrote (n : RegNum) (v : Word) (b : Block) : i = .wr n v → s.block.fault = false → s.block.writeNumber n v = some b →
      WriteKeeps n v s.block b → Effect i s (s.setBlock b)
  | refusedWrite (n : RegNum) (v : Word) : i = .wr n v → s.block.fault = false →
      8 ≤ n.toNat ∨ n = 7#4 ∧ v.extractLsb' 3 13 ≠ 0#13 → Effect i s (s.setBlock (s.block.raise .ill))
  | read (n : RegNum) (v : Word) : i = .rd n → s.block.readNumber s.cfg n = some v →
      Effect i s (s.setBlock (s.block.setRdata v))
  | refusedRead (n : RegNum) : i = .rd n → s.block.fault = false → 13 ≤ n.toNat →
      Effect i s (s.setBlock (s.block.raise .ill))
  | added (ws : List Word) (a : BitVec 32) :
      (∃ w, i = .addw w ∧ ws = [w]) ∨ (∃ o1 o2, i = .pkip o1 o2 ∧ ws = [packIp o1 o2 s.block.ctrl.ippad]) ∨
        (i = .hdr ∧ ws = hdrAddends s.block) →
      s.block.fault = false → a.toNat = s.block.acc.toNat + (ws.map BitVec.toNat).sum → a.toNat < accLimit s.cfg →
      Effect i s (s.setBlock (s.block.setAcc a))
  | overflowed (ws : List Word) :
      (∃ w, i = .addw w ∧ ws = [w]) ∨ (∃ o1 o2, i = .pkip o1 o2 ∧ ws = [packIp o1 o2 s.block.ctrl.ippad]) ∨
        (i = .hdr ∧ ws = hdrAddends s.block) ∨
        (∃ b, i = .pushb b ∧ s.block.pkv = true ∧ ws = [packPl s.block.pkb b]) →
      s.block.fault = false → accLimit s.cfg ≤ s.block.acc.toNat + (ws.map BitVec.toNat).sum →
      Effect i s (s.setBlock (s.block.raise .ovf))
  | held (b : Byte) : i = .pushb b → s.block.fault = false → s.block.pkv = false →
      Effect i s (s.setBlock (s.block.setPacker b true))
  | paired (b : Byte) (a : BitVec 32) : i = .pushb b → s.block.fault = false → s.block.pkv = true →
      a.toNat = s.block.acc.toNat + (packPl s.block.pkb b).toNat → a.toNat < accLimit s.cfg →
      Effect i s (s.setBlock ((s.block.setAcc a).setPacker 0 false))
  | finished : i = .fin → s.block.fault = false → s.block.pkv = false →
      Effect i s (s.setBlock (s.block.setResult (finResult s.block.acc.toNat s.block.ctrl) (finFolded s.block.acc.toNat)
        (finCpld s.block.acc.toNat s.block.ctrl.cplall)))
  | oddPayload : i = .fin → s.block.fault = false → s.block.pkv = true → Effect i s (s.setBlock (s.block.raise .odd))

theorem exec_effect {i : Instr} {s t : State} (h : exec i s = .next t) : Effect i s t := by
  cases i with
  | nop => cases h; exact .same (.inl rfl)
  | init => cases h; exact .started rfl
  | wr n v =>
    simp only [exec, execWr] at h
    split at h <;> rename_i hb <;>
      rcases State.attempt_cases h with ⟨hf, rfl⟩ | ⟨hf, b, hact, rfl⟩ | ⟨hf, f, hact, rfl⟩ <;> (try exact .same (.inr hf)) <;>
      cases hact
    · exact .wrote n v _ rfl hf hb (Block.writeNumber_keeps hb)
    · exact .refusedWrite n v rfl hf (Block.writeNumber_eq_none hb)
  | rd n =>
    simp only [exec, execRd] at h
    split at h
    · cases h; exact .read n _ rfl (by assumption)
    · rename_i hb
      have hn : 13 ≤ n.toNat := (regOfNumber_eq_none_iff n).1 (by simpa [Block.readNumber] using hb)
      rcases State.attempt_cases h with ⟨hf, rfl⟩ | ⟨hf, b, hact, rfl⟩ | ⟨hf, f, hact, rfl⟩ <;> (try exact .same (.inr hf)) <;>
        cases hact
      exact .refusedRead n rfl hf hn
  | addw w =>
    simp only [exec, execAddw] at h
    rcases Block.accumulate_cases s.cfg s.block [w] with ⟨a, ha, hl, he⟩ | ⟨hl, he⟩ <;> rw [he] at h <;>
      rcases State.attempt_cases h with ⟨hf, rfl⟩ | ⟨hf, b, hact, rfl⟩ | ⟨hf, f, hact, rfl⟩ <;> (try exact .same (.inr hf)) <;>
      cases hact
    · exact .added _ a (.inl ⟨w, rfl, rfl⟩) hf ha hl
    · exact .overflowed _ (.inl ⟨w, rfl, rfl⟩) hf hl
  | pkip o1 o2 =>
    simp only [exec, execPkip] at h
    rcases Block.accumulate_cases s.cfg s.block [packIp o1 o2 s.block.ctrl.ippad] with ⟨a, ha, hl, he⟩ | ⟨hl, he⟩ <;>
      rw [he] at h <;>
      rcases State.attempt_cases h with ⟨hf, rfl⟩ | ⟨hf, b, hact, rfl⟩ | ⟨hf, f, hact, rfl⟩ <;> (try exact .same (.inr hf)) <;>
      cases hact
    · exact .added _ a (.inr (.inl ⟨o1, o2, rfl, rfl⟩)) hf ha hl
    · exact .overflowed _ (.inr (.inl ⟨o1, o2, rfl, rfl⟩)) hf hl
  | pushb b =>
    simp only [exec, execPushb] at h
    rcases Block.pushByte_cases s.cfg s.block b with ⟨hv, he⟩ | ⟨hv, a, ha, hl, he⟩ | ⟨hv, hl, he⟩ <;> rw [he] at h <;>
      rcases State.attempt_cases h with ⟨hf, rfl⟩ | ⟨hf, b', hact, rfl⟩ | ⟨hf, f, hact, rfl⟩ <;> (try exact .same (.inr hf)) <;>
      cases hact
    · exact .held b rfl hf hv
    · exact .paired b a rfl hf hv ha hl
    · exact .overflowed [packPl s.block.pkb b] (.inr (.inr (.inr ⟨b, rfl, hv, rfl⟩))) hf (by simpa using hl)
  | hdr =>
    simp only [exec, execHdr] at h
    rcases Block.accumulate_cases s.cfg s.block (hdrAddends s.block) with ⟨a, ha, hl, he⟩ | ⟨hl, he⟩ <;> rw [he] at h <;>
      rcases State.attempt_cases h with ⟨hf, rfl⟩ | ⟨hf, b, hact, rfl⟩ | ⟨hf, f, hact, rfl⟩ <;> (try exact .same (.inr hf)) <;>
      cases hact
    · exact .added _ a (.inr (.inr ⟨rfl, rfl⟩)) hf ha hl
    · exact .overflowed _ (.inr (.inr (.inl ⟨rfl, rfl⟩))) hf hl
  | fin =>
    simp only [exec, execFin] at h
    cases hv : s.block.pkv with
    | false =>
      rw [Block.finish_even hv] at h
      rcases State.attempt_cases h with ⟨hf, rfl⟩ | ⟨hf, b, hact, rfl⟩ | ⟨hf, f, hact, rfl⟩ <;> (try exact .same (.inr hf)) <;>
        cases hact
      exact .finished rfl hf hv
    | true =>
      rw [Block.finish_odd hv] at h
      rcases State.attempt_cases h with ⟨hf, rfl⟩ | ⟨hf, b, hact, rfl⟩ | ⟨hf, f, hact, rfl⟩ <;> (try exact .same (.inr hf)) <;>
        cases hact
      exact .oddPayload rfl hf hv

/-! ### Steps -/

theorem step_cmd {s : State} {c : CmdWord} {rest : List Event} (h : s.inbox = .cmd c :: rest) :
    step s = match decode c with
      | .command i => exec i (s.setInbox rest)
      | .illegal _ => (s.setInbox rest).illegalWord := by
  rw [step, State.nextEvent_cons h] <;> rfl

theorem step_rst {s : State} {rest : List Event} (h : s.inbox = .rst :: rest) :
    step s = .next (s.setInbox rest).takeReset := by
  simp only [step, State.nextEvent_cons h]

/-- Everything a step can do. -/
theorem step_cases {s t : State} (h : step s = .next t) :
    (s.inbox = [] ∧ t = s) ∨
    (∃ rest, s.inbox = .rst :: rest ∧ t = (s.setInbox rest).takeReset) ∨
    (∃ c rest i, s.inbox = .cmd c :: rest ∧ decode c = .command i ∧ exec i (s.setInbox rest) = .next t) ∨
    (∃ c rest why, s.inbox = .cmd c :: rest ∧ decode c = .illegal why ∧ s.block.fault = true ∧ t = s.setInbox rest) ∨
    (∃ c rest why, s.inbox = .cmd c :: rest ∧ decode c = .illegal why ∧ s.block.fault = false ∧
      t = (s.setInbox rest).setBlock (s.block.raise .ill)) := by
  rcases hb : s.inbox with _ | ⟨e, rest⟩
  · rw [step, State.nextEvent_nil hb] at h
    cases h
    exact .inl ⟨rfl, rfl⟩
  · cases e with
    | rst =>
      rw [step_rst hb] at h
      cases h
      exact .inr (.inl ⟨_, rfl, rfl⟩)
    | cmd c =>
      rw [step_cmd hb] at h
      split at h
      · exact .inr (.inr (.inl ⟨_, _, _, rfl, by assumption, h⟩))
      · rcases State.attempt_cases h with ⟨hf, rfl⟩ | ⟨hf, b, hact, rfl⟩ | ⟨hf, f, hact, rfl⟩ <;> try cases hact
        · exact .inr (.inr (.inr (.inl ⟨_, _, _, rfl, by assumption, hf, rfl⟩)))
        · exact .inr (.inr (.inr (.inr ⟨_, _, _, rfl, by assumption, hf, rfl⟩)))

/-- One more step of a run. -/
theorem run_succ (M : Host.Core) (k : Nat) (a b : M.State) (h : M.step a = .next b) : M.run (k + 1) a = M.run k b := by
  simp [Host.Core.run, h]

end Sys2Proof.Machine
end

