-- ==== Sys2Proof/Tests/Slice0.lean ====
section
/-! SUPPORT. Tests and witnesses. Expected values come from spec/95_test_vectors.md, or from the rule named; every word is written
out from the encodings of spec/30_encoding.md R56. -/

open Sys2Proof Sys2Proof.Machine

namespace Sys2Proof.Tests

/-! ### Helpers -/

/-- A block at rest with `ACCW = 32`. -/
def wide (b : Block) : State := ⟨Config.standard, b, []⟩

/-- A block at rest with `ACCW = 17`. -/
def narrow (b : Block) : State := ⟨⟨17, by decide, by decide⟩, b, []⟩

/-- The state with one word presented. -/
def State.facing (s : State) (c : CmdWord) : State := { s with inbox := [.cmd c] }

/-- The block after one step on one presented word. -/
def blockAfter (s : State) (c : CmdWord) : Option Block :=
  match step (State.facing s c) with
  | .next t => some t.block
  | .fault _ => none
  | .refused _ => none

/-- The reset block with another sum. -/
def withAcc (a : BitVec 32) : Block := { Block.reset with acc := a }

/-- The reset block with one payload byte pending. -/
def pending (byte : Byte) : Block := { Block.reset with pkb := byte, pkv := true }

/-- The end of the document's example (section 1.1). -/
def finished : Block :=
  { Block.reset with
    sport := 0xDE90, dport := 0x8B1E, len := 0x0038, sip0 := 0xAC14, sip1 := 0x2978, dip0 := 0xBABA, dip1 := 0x04C8,
    acc := 0x000BF7A1, res := 0x0853, done := true, folded := true, cpld := true }

/-- A block stopped by an overflow. -/
def stopped : Block := { finished with fOvf := true }

/-! ### Well-formedness refuses each ill-formed term -/

theorem test_wellFormed_refuses_wr_readOnly : ¬(Instr.wr 8 0).WellFormed := by decide

theorem test_wellFormed_refuses_wr_ctrl_reservedBit : ¬(Instr.wr 7 0x0008).WellFormed := by decide

theorem test_wellFormed_refuses_rd_reserved : ¬(Instr.rd 13).WellFormed := by decide

theorem test_wellFormed_accepts_boundaries :
    (Instr.wr 6 0xFFFF).WellFormed ∧ (Instr.wr 7 0x0007).WellFormed ∧ (Instr.rd 12).WellFormed := by decide

/-! ### Decoding (section 2.5) -/

theorem test_decode_nop : decode 0b0000_0000_0000_0000_0000_0000#24 = .command .nop := by decide

theorem test_decode_init : decode 0b0001_0000_0000_0000_0000_0000#24 = .command .init := by decide

theorem test_decode_wr : decode 0b0010_0110_1100_0000_1010_1000#24 = .command (.wr 6 0xC0A8) := by decide

theorem test_decode_rd : decode 0b0011_1100_0000_0000_0000_0000#24 = .command (.rd 12) := by decide

theorem test_decode_addw : decode 0b0100_0000_1101_1110_1001_0000#24 = .command (.addw 0xDE90) := by decide

theorem test_decode_pkip : decode 0b0101_0000_0000_0100_1100_1000#24 = .command (.pkip 4 200) := by decide

theorem test_decode_pushb : decode 0b0110_0000_0000_0000_0110_1100#24 = .command (.pushb 0x6C) := by decide

theorem test_decode_hdr : decode 0b0111_0000_0000_0000_0000_0000#24 = .command .hdr := by decide

theorem test_decode_fin : decode 0b1000_0000_0000_0000_0000_0000#24 = .command .fin := by decide

theorem test_decode_illegal :
    decode 0x010000 = .illegal .reservedField ∧ decode 0x1F0000 = .illegal .reservedField ∧
    decode 0x300001 = .illegal .reservedField ∧ decode 0x410000 = .illegal .reservedField ∧
    decode 0x510000 = .illegal .reservedField ∧ decode 0x600190 = .illegal .reservedField ∧
    decode 0x710000 = .illegal .reservedField ∧ decode 0x800001 = .illegal .reservedField ∧
    decode 0x900000 = .illegal .reservedOpcode ∧ decode 0xFFFFFF = .illegal .reservedOpcode := by decide

/-- The words of R65 and of section 1.1. -/
theorem test_encode :
    encode (.wr 0 0xDE90) = 0x20DE90 ∧ encode (.rd 11) = 0x3B0000 ∧ encode (.pkip 4 200) = 0x5004C8 ∧
    encode (.pushb 0x90) = 0x600090 := by decide

theorem test_decodeTableWord : decodeTableWord 24 0x5004C8 = some (.pkip 4 200) ∧ decodeTableWord 24 0x900000 = none := by
  decide

/-- A word placed where the next command is taken from is the one performed. -/
theorem test_withFetchWord : step (State.reset.withFetchWord 24 0x700000) = .next (wide (withAcc 0x11)) := by rfl

/-! ### One step of each command -/

/-- Section 2.1: `NOP` between the bytes of a pair leaves the pair alone. -/
theorem test_nop : blockAfter (wide (pending 0x12)) 0x000000 = some (pending 0x12) := by decide

/-- R115: `NOP` with a fault pending. -/
theorem test_nop_fault : blockAfter (wide stopped) 0x000000 = some stopped := by decide

/-- Section 2.4: `INIT` after a finished run keeps the field registers. -/
theorem test_init :
    (blockAfter (wide finished) 0x100000).map (fun b => (b.acc, b.res, b.status, b.sport, b.dip1)) =
      some (0, 0, 0, 0xDE90, 0x04C8) := by decide

/-- Section 2.6: `INIT` clears the fault. -/
theorem test_init_fault : (blockAfter (wide stopped) 0x100000).map (fun b => b.fault) = some false := by decide

/-- Section 2.4: `WR SIP1, 0x0105` and `WR CTRL, 0x0005`. -/
theorem test_wr :
    blockAfter (wide Block.reset) 0x240105 = some { Block.reset with sip1 := 0x0105 } ∧
    blockAfter (wide Block.reset) 0x270005 = some { Block.reset with ctrl := ⟨true, false, true⟩ } := by decide

/-- Section 2.5: a reserved bit of `CTRL`, a read-only register, a reserved number. -/
theorem test_wr_refused :
    blockAfter (wide Block.reset) 0x270008 = some { Block.reset with fIll := true } ∧
    blockAfter (wide Block.reset) 0x2B0853 = some { Block.reset with fIll := true } ∧
    blockAfter (wide Block.reset) 0x2F0000 = some { Block.reset with fIll := true } := by decide

/-- R118: after the document's example, `RD RES`, `RD ACCH`, `RD ACCL`, `RD STATUS`. -/
theorem test_rd :
    (blockAfter (wide finished) 0x3B0000).map (fun b => b.rdata) = some 0x0853 ∧
    (blockAfter (wide finished) 0x3A0000).map (fun b => b.rdata) = some 0x000B ∧
    (blockAfter (wide finished) 0x390000).map (fun b => b.rdata) = some 0xF7A1 ∧
    (blockAfter (wide finished) 0x380000).map (fun b => b.rdata) = some 0x000E := by decide

/-- Section 2.6: `RD STATUS` and `RD ACCH` of a 17-bit accumulator with an overflow pending; section 2.5: `RD r13`. -/
theorem test_rd_fault :
    (blockAfter (narrow { withAcc 0x1FFFF with fOvf := true }) 0x380000).map (fun b => b.rdata) = some 0x0100 ∧
    (blockAfter (narrow { withAcc 0x1FFFF with fOvf := true }) 0x3A0000).map (fun b => b.rdata) = some 0x0001 ∧
    blockAfter (wide Block.reset) 0x3D0000 = some { Block.reset with fIll := true } := by decide

/-- Section 2.2: the largest value of a 32-bit `ACC`, and the sum that no longer fits. -/
theorem test_addw :
    blockAfter (wide (withAcc 0xFFFF0000)) 0x40FFFF = some (withAcc 0xFFFFFFFF) ∧
    blockAfter (wide (withAcc 0xFFFF0001)) 0x40FFFF = some { withAcc 0xFFFF0001 with fOvf := true } := by decide

/-- Section 2.2 with `ACCW = 17`. -/
theorem test_addw_narrow :
    blockAfter (narrow (withAcc 0x10000)) 0x40FFFF = some (withAcc 0x1FFFF) ∧
    blockAfter (narrow (withAcc 0x1FFFF)) 0x400001 = some { withAcc 0x1FFFF with fOvf := true } := by decide

/-- Section 2.1: `PKIP 200, 4` in both modes. -/
theorem test_pkip :
    blockAfter (wide Block.reset) 0x50C804 = some (withAcc 0x0C84) ∧
    blockAfter (wide { Block.reset with ctrl := ⟨true, false, false⟩ }) 0x50C804 =
      some { withAcc 0xC804 with ctrl := ⟨true, false, false⟩ } := by decide

/-- Section 2.1: `PUSHB 0x12`, and `PUSHB 0x34` after it. -/
theorem test_pushb :
    blockAfter (wide Block.reset) 0x600012 = some (pending 0x12) ∧
    blockAfter (wide (pending 0x12)) 0x600034 = some (withAcc 0x1234) := by decide

/-- Section 2.6: the second byte of a pair does not fit 17 bits; the byte is lost and `PKV` stays 1. -/
theorem test_pushb_overflow :
    blockAfter (narrow { pending 0xFF with acc := 0x1FFFE }) 0x6000FF =
      some { pending 0xFF with acc := 0x1FFFE, fOvf := true } := by decide

/-- Section 2.2: the document's header. -/
theorem test_hdr : (blockAfter (wide { finished with acc := 0 }) 0x700000).map (fun b => b.acc) = some 0x0002FF3D := by decide

/-- Section 2.2: with `ACCW = 17`, `SPORT = 0xFFFF`, a header that fits exactly and one that does not fit by one. -/
theorem test_hdr_narrow :
    (blockAfter (narrow { withAcc 0xFFEF with sport := 0xFFFF }) 0x700000).map (fun b => (b.acc, b.fOvf)) =
      some (0x1FFFF, false) ∧
    (blockAfter (narrow { withAcc 0xFFF0 with sport := 0xFFFF }) 0x700000).map (fun b => (b.acc, b.fOvf)) =
      some (0xFFF0, true) := by decide

/-- Section 2.3, `CTRL = 0`: the document's sum; a single pass that carries; no fold, no complement. -/
theorem test_fin :
    (blockAfter (wide (withAcc 0x000BF7A1)) 0x800000).map (fun b => (b.res, b.status)) = some (0x0853, 0x000E) ∧
    (blockAfter (wide (withAcc 0xFFFFFFFF)) 0x800000).map (fun b => (b.res, b.status)) = some (0x0001, 0x000E) ∧
    (blockAfter (wide (withAcc 0x0000FFFF)) 0x800000).map (fun b => (b.res, b.status)) = some (0xFFFF, 0x0002) := by decide

/-- Section 2.3, `CTRL = 6`: the looped fold, and the complement of an unfolded sum. -/
theorem test_fin_corrected :
    (blockAfter (wide { withAcc 0x8000FFFF with ctrl := ⟨false, true, true⟩ }) 0x800000).map (fun b => (b.res, b.status)) =
      some (0x7FFF, 0x000E) ∧
    (blockAfter (wide { withAcc 0x00001234 with ctrl := ⟨false, true, true⟩ }) 0x800000).map (fun b => (b.res, b.status)) =
      some (0xEDCB, 0x000A) := by decide

/-- R130: `FIN` with a byte pending. -/
theorem test_fin_odd : blockAfter (wide (pending 0x12)) 0x800000 = some { pending 0x12 with fOdd := true } := by decide

/-- R128: an `Illegal` word with a fault pending has no effect. -/
theorem test_gate_illegal : blockAfter (wide stopped) 0xFFFFFF = some stopped := by decide

/-- R146: reset while a command waits; R155: an accepted word; R6: nothing. -/
theorem test_edges :
    Edge.event ⟨true, true, 0x700000, false⟩ = some .rst ∧
    Edge.event ⟨false, true, 0x700000, true⟩ = some (.cmd 0x700000) ∧
    Edge.event ⟨false, true, 0x700000, false⟩ = none := by decide

/-- R9: a waiting word may be neither changed nor withdrawn. -/
theorem test_handshake :
    eventsOf [⟨false, true, 0x700000, false⟩, ⟨false, true, 0x700000, true⟩] = some [.cmd 0x700000] ∧
    eventsOf [⟨false, true, 0x700000, false⟩, ⟨false, true, 0x800000, true⟩] = none ∧
    eventsOf [⟨false, true, 0x700000, false⟩, ⟨false, false, 0x700000, true⟩] = none := by decide

/-- R66, R67: `LDIP` and `PUSHH`, and what the assembler rejects. -/
theorem test_assembler :
    assembleText "LDIP S, 172.20.41.120" = some [.wr 3 0xAC14, .wr 4 0x2978] ∧
    assembleText "PUSHH \"906c\"" = some [.pushb 0x90, .pushb 0x6C] ∧
    assembleText "PUSHH \"906\"" = none ∧ assembleText "PUSHB 0x100" = none := by decide

/-- R109: the printed line. -/
theorem test_checkSumLine : checkSumLine false 0x0853 = "Check sum: 0x0853".toList := by decide

/-! ### Witnesses: the hypotheses of each statement can be met, clause by clause, at the boundary values -/

theorem witness_EveryCommandHasOneWord : decode 0x3A0000 = .command (.rd 10) := by decide

theorem witness_OpcodeMapSelectsCommands :
    ∀ p ∈ [(0x000000#24, 0xFFFFFF#24), (0x100000#24, 0xFFFFFF#24), (0x200000#24, 0xF00000#24),
      (0x300000#24, 0xF0FFFF#24), (0x400000#24, 0xFF0000#24), (0x500000#24, 0xFF0000#24),
      (0x600000#24, 0xFFFF00#24), (0x700000#24, 0xFFFFFF#24), (0x800000#24, 0xFFFFFF#24)],
      0x600100#24 &&& p.2 ≠ p.1 ∧ 0x900000#24 &&& p.2 ≠ p.1 := by simp

theorem witness_ReservedOpcodesAreIllegal : 9 ≤ (0x9#4).toNat ∧ 9 ≤ (0xF#4).toNat := by decide

/-- One word for each clause: `OP` 0 with `IMM` 1, `OP` 8 with `RN` 1, `OP` 3, `OP` 4, `OP` 6 with `IMM[15:8]` 1 and with `RN` 1. -/
theorem witness_ReservedFieldsMustBeZero :
    (BitVec.extractLsb' 20 4 0x000001#24 = 0x0#4 ∧ BitVec.extractLsb' 0 16 0x000001#24 ≠ 0#16) ∧
    (BitVec.extractLsb' 20 4 0x810000#24 = 0x8#4 ∧ BitVec.extractLsb' 16 4 0x810000#24 ≠ 0#4) ∧
    (BitVec.extractLsb' 20 4 0x308000#24 = 0x3#4 ∧ BitVec.extractLsb' 0 16 0x308000#24 ≠ 0#16) ∧
    (BitVec.extractLsb' 20 4 0x410000#24 = 0x4#4 ∧ BitVec.extractLsb' 16 4 0x410000#24 ≠ 0#4) ∧
    (BitVec.extractLsb' 20 4 0x600100#24 = 0x6#4 ∧
      BitVec.extractLsb' 8 8 (BitVec.extractLsb' 0 16 0x600100#24) ≠ 0#8) ∧
    (BitVec.extractLsb' 20 4 0x610000#24 = 0x6#4 ∧ BitVec.extractLsb' 16 4 0x610000#24 ≠ 0#4) := by decide

theorem witness_RefusedWordsRaiseIllegal :
    (wide Block.reset).block.fault = false ∧ ¬(Instr.rd 13).WellFormed ∧ ¬(Instr.rd 15).WellFormed ∧
    ¬(Instr.wr 8 0).WellFormed ∧ ¬(Instr.wr 15 0).WellFormed ∧ ¬(Instr.wr 7 0x8000).WellFormed := by decide

theorem witness_StepPerformsTheDecodedCommand :
    (State.facing (wide finished) 0x700000).inbox = .cmd 0x700000 :: [] ∧ decode 0x700000 = .command .hdr := by decide

theorem witness_IllegalWordSetsOnlyFIll :
    (State.facing (wide finished) 0x900000).inbox = .cmd 0x900000 :: [] ∧ decode 0x900000 = .illegal .reservedOpcode ∧
    (State.facing (wide finished) 0x900000).block.fault = false ∧
    (State.facing (wide stopped) 0x900000).inbox = .cmd 0x900000 :: [] ∧
    (State.facing (wide stopped) 0x900000).block.fault = true := by decide

theorem witness_IdleBlockHoldsItsState : (wide finished).inbox = [] := by decide

theorem witness_StepsLeaveTheEnvironmentAlone :
    exec .hdr (wide Block.reset) = .next (wide (withAcc 0x11)) ∧
    step (State.facing (wide Block.reset) 0x700000) = .next (wide (withAcc 0x11)) := ⟨rfl, rfl⟩

theorem witness_CommandsTakeEffectInOrder : (wide Block.reset).perform [.hdr] = .next (wide (withAcc 0x11)) := rfl

/-- One word for each clause of the gate, closed and open. -/
theorem witness_FaultGate :
    (State.facing (wide stopped) 0).inbox = .cmd 0 :: [] ∧ stopped.fault = true ∧ finished.fault = false ∧
    decode 0x000000 = .command .nop ∧ decode 0x100000 = .command .init ∧
    (decode 0x3C0000 = .command (.rd 12) ∧ (12#4).toNat ≤ 12) ∧
    (decode 0x3D0000 = .command (.rd 13) ∧ 13 ≤ (13#4).toNat) ∧
    decode 0x270000 = .command (.wr 7 0) ∧ decode 0x800000 = .command .fin ∧
    decode 0xFFFFFF = .illegal .reservedOpcode := by decide

theorem witness_FaultGate_steps :
    step (State.facing (wide stopped) 0x270001) = .next (wide stopped) ∧
    step (State.facing (wide finished) 0xFFFFFF) = .next (wide { finished with fIll := true }) := ⟨rfl, rfl⟩

/-- Each of the three faults is raised by some command. -/
theorem witness_FaultsArePrecise :
    (exec (.addw 1) (wide (withAcc 0xFFFFFFFF)) = .next (wide { withAcc 0xFFFFFFFF with fOvf := true })) ∧
    (exec .fin (wide (pending 0x12)) = .next (wide { pending 0x12 with fOdd := true })) ∧
    (exec (.wr 8 0) (wide finished) = .next (wide { finished with fIll := true })) ∧
    (withAcc 0xFFFFFFFF).fault = false ∧ (pending 0x12).fault = false ∧ finished.fault = false :=
  ⟨rfl, rfl, rfl, by decide, by decide, by decide⟩

theorem witness_FaultBitsAreSticky :
    step (State.facing (wide { withAcc 0x11 with fOvf := true }) 0x800000) = .next (wide { withAcc 0x11 with fOvf := true }) ∧
    (∀ rest, (State.facing (wide { withAcc 0x11 with fOvf := true }) 0x800000).inbox ≠ .rst :: rest) ∧
    decode 0x800000 ≠ .command .init ∧ ({ withAcc 0x11 with fOvf := true } : Block).fault = true ∧
    ({ withAcc 0x11 with fOvf := true } : Block).done = false :=
  ⟨rfl, by simp [State.facing], by decide, by decide, by decide⟩

/-- Both sides of the equivalence: the largest sum that fits and the smallest that does not, for each command that adds. -/
theorem witness_CausesOfOverflow :
    (withAcc 0x1FFFF).fault = false ∧ (pending 0xFF).fault = false ∧
    step (State.facing (narrow (withAcc 0x1FFFE)) 0x400001) = .next (narrow (withAcc 0x1FFFF)) ∧
    step (State.facing (narrow (withAcc 0x1FFFF)) 0x400001) = .next (narrow { withAcc 0x1FFFF with fOvf := true }) ∧
    step (State.facing (narrow (withAcc 0x1FFFF)) 0x500001) = .next (narrow { withAcc 0x1FFFF with fOvf := true }) ∧
    step (State.facing (narrow (withAcc 0x1FFFF)) 0x700000) = .next (narrow { withAcc 0x1FFFF with fOvf := true }) ∧
    step (State.facing (narrow { pending 0xFF with acc := 0x10100 }) 0x600000) =
      .next (narrow { pending 0xFF with acc := 0x10100, fOvf := true }) :=
  ⟨by decide, by decide, rfl, rfl, rfl, rfl, rfl⟩

theorem witness_CausesOfOddPayload :
    (pending 0x12).fault = false ∧
    step (State.facing (wide (pending 0x12)) 0x800000) = .next (wide { pending 0x12 with fOdd := true }) ∧
    step (State.facing (wide (pending 0x12)) 0x600034) = .next (wide (withAcc 0x1234)) := ⟨by decide, rfl, rfl⟩

/-- One word for each cause, at the boundary of its range. -/
theorem witness_CausesOfIllegal :
    finished.fault = false ∧
    step (State.facing (wide finished) 0x900000) = .next (wide { finished with fIll := true }) ∧
    step (State.facing (wide finished) 0x280000) = .next (wide { finished with fIll := true }) ∧
    step (State.facing (wide finished) 0x270008) = .next (wide { finished with fIll := true }) ∧
    step (State.facing (wide finished) 0x3D0000) = .next (wide { finished with fIll := true }) :=
  ⟨by decide, rfl, rfl, rfl, rfl⟩

/-- The invariant of the end of the document's example. -/
theorem inv_finished : (wide finished).Inv := ⟨by decide, by decide, by decide, by decide, by decide⟩

theorem witness_EveryStepKeepsTheInvariant :
    (State.facing (wide finished) 0x600012).Inv ∧
    step (State.facing (wide finished) 0x600012) = .next (wide { finished with pkb := 0x12, pkv := true }) :=
  ⟨⟨by decide, by decide, by decide, by decide, by decide⟩, rfl⟩

/-- Each group of state is changed by some command. -/
theorem witness_OnlyTheTabulatedCommandsWrite :
    exec (.wr 6 0x1234) (wide Block.reset) = .next (wide { Block.reset with dip1 := 0x1234 }) ∧
    exec (.wr 7 1) (wide Block.reset) = .next (wide { Block.reset with ctrl := ⟨true, false, false⟩ }) ∧
    exec (.addw 1) (wide Block.reset) = .next (wide (withAcc 1)) ∧
    exec (.pushb 0x12) (wide Block.reset) = .next (wide (pending 0x12)) ∧
    exec .fin (wide (withAcc 1)) = .next (wide { withAcc 1 with res := 1, done := true }) ∧
    exec (.addw 1) (wide (withAcc 0xFFFFFFFF)) = .next (wide { withAcc 0xFFFFFFFF with fOvf := true }) ∧
    exec .fin (wide (pending 0x12)) = .next (wide { pending 0x12 with fOdd := true }) ∧
    exec (.rd 13) (wide Block.reset) = .next (wide { Block.reset with fIll := true }) ∧
    exec (.rd 11) (wide { Block.reset with res := 0x0853 }) =
      .next (wide { Block.reset with res := 0x0853, rdata := 0x0853 }) := ⟨rfl, rfl, rfl, rfl, rfl, rfl, rfl, rfl, rfl⟩

theorem witness_AccumulatorNeverWraps :
    (narrow (withAcc 0x1FFFF)).Inv ∧ Instr.addw 0xFFFF ≠ .init ∧
    exec (.addw 0xFFFF) (narrow (withAcc 0x1FFFF)) = .next (narrow { withAcc 0x1FFFF with fOvf := true }) :=
  ⟨⟨by decide, by decide, by decide, by decide, by decide⟩, by decide, rfl⟩

/-- Both clauses: `PUSHB` and `HDR`. -/
theorem witness_ModeBitsMatterOnlyWhereRead :
    (∀ v, Instr.pushb 0x12 ≠ .wr 7 v) ∧ Instr.pushb 0x12 ≠ .rd 7 ∧ (∀ o1 o2, Instr.pushb 0x12 ≠ .pkip o1 o2) ∧
    Instr.pushb 0x12 ≠ .hdr ∧ exec (.pushb 0x12) (wide Block.reset) = .next (wide (pending 0x12)) ∧
    (∀ v, Instr.hdr ≠ .wr 7 v) ∧ Instr.hdr ≠ .rd 7 ∧ Instr.hdr ≠ .fin ∧
    exec .hdr (wide Block.reset) = .next (wide (withAcc 0x11)) := by
  refine ⟨?_, ?_, ?_, ?_, rfl, ?_, ?_, ?_, rfl⟩ <;> simp

theorem witness_ResultsAreNeverReadBack :
    exec (.addw 1) (wide finished) = .next (wide { finished with acc := 0x000BF7A2 }) := rfl

theorem witness_ResetDominates :
    (⟨true, true, 0x700000, false⟩ : Edge).rst = true ∧ (⟨true, true, 0x700000, false⟩ : Edge).readyLegal = true ∧
    (⟨Config.standard, finished, [.rst, .cmd 0]⟩ : State).inbox = .rst :: [.cmd 0] := by decide

theorem witness_CommandAcceptedOnHandshake :
    (⟨false, true, 0x700000, true⟩ : Edge).event = some (.cmd 0x700000) := by decide

theorem witness_InitIsResetButForInputs : (⟨Config.standard, finished, [.rst]⟩ : State).inbox = .rst :: [] := by decide

/-- Bits 4 and 7, and the first reserved high bit. -/
theorem witness_OutputsAreViewsOfState : (4 ≤ 4 ∧ 4 ≤ 7 ∨ 11 ≤ 4) ∧ (4 ≤ 7 ∧ 7 ≤ 7 ∨ 11 ≤ 7) ∧ (4 ≤ 11 ∧ 11 ≤ 7 ∨ 11 ≤ 11) := by
  decide

theorem witness_NopChangesNothing :
    BitVec.extractLsb' 20 4 0x000001#24 = 0#4 ∧ (0x000001#24 : CmdWord) ≠ 0x000000#24 ∧
    BitVec.extractLsb' 20 4 0x0FFFFF#24 = 0#4 ∧ (0x0FFFFF#24 : CmdWord) ≠ 0x000000#24 := by decide

theorem witness_InitStartsANewRun :
    stopped.fault = true ∧ exec .init (wide stopped) = .next (wide stopped.startRun) ∧ stopped.startRun.fault = false :=
  ⟨by decide, rfl, by decide⟩

theorem witness_WrWritesTheNamedRegister :
    stopped.fault = true ∧ finished.fault = false ∧ BitVec.extractLsb' 3 13 0x0007#16 = 0#13 ∧
    BitVec.extractLsb' 3 13 0x0008#16 ≠ 0#13 ∧ 8 ≤ (8#4).toNat ∧ 8 ≤ (15#4).toNat := by decide

theorem witness_RdReadsTheNamedRegister :
    (1#16 : Word) ≠ 0#16 ∧ 13 ≤ (13#4).toNat ∧ 13 ≤ (15#4).toNat ∧ finished.fault = false ∧ stopped.fault = true := by
  decide

/-- `ACCW = 32`, and `ACCW = 17` with the first missing bit. -/
theorem witness_AccumulatorReadsThroughTwoHalves :
    (wide finished).Inv ∧ (wide finished).cfg.accw = 32 ∧ (wide finished).block.fault = false ∧
    (narrow (withAcc 0x1FFFF)).Inv ∧ (narrow (withAcc 0x1FFFF)).cfg.accw ≤ 16 + 1 ∧
    exec (.rd 10) (narrow (withAcc 0x1FFFF)) = .next (narrow { withAcc 0x1FFFF with rdata := 1 }) :=
  ⟨inv_finished, by decide, by decide, ⟨by decide, by decide, by decide, by decide, by decide⟩, by decide, rfl⟩

theorem witness_PayloadPackerIsABijection : packPl 0x12#8 0x04#8 = 0x1204#16 := by decide

/-- Either side of the boundary, and two equal words. -/
theorem witness_IpPackerInBothModes :
    16 ≤ (16#8).toNat ∧ (15#8).toNat < 16 ∧ packIp 255#8 15#8 true = packIp 255#8 15#8 true := by decide

/-- With `ACCW = 17` and the byte 0xFF pending: the largest `ACC` at which `PUSHB 0` fits, and the next. -/
theorem witness_PushbPairsPayloadBytes :
    stopped.fault = true ∧ Block.reset.fault = false ∧ Block.reset.pkv = false ∧ (pending 0xFF).fault = false ∧
    (pending 0xFF).pkv = true ∧ ((1#4 : RegNum) ≠ 0#4 ∨ (0#8 : Byte) ≠ 0#8) ∧ ((0#4 : RegNum) ≠ 0#4 ∨ (1#8 : Byte) ≠ 0#8) ∧
    (0x100FF#32).toNat + ((pending 0xFF).pkb.toNat * 256 + (0#8).toNat) < 2 ^ (narrow (pending 0xFF)).cfg.accw ∧
    2 ^ (narrow (pending 0xFF)).cfg.accw ≤ (0x10100#32).toNat + ((pending 0xFF).pkb.toNat * 256 + (0#8).toNat) := by
  decide

theorem witness_PkipAddsThePackedOctets :
    stopped.fault = true ∧ (withAcc 0x1FFFE).fault = false ∧ (1#4 : RegNum) ≠ 0#4 ∧
    (0x1FFFE#32).toNat + (packIp 0#8 1#8 (withAcc 0x1FFFE).ctrl.ippad).toNat < 2 ^ (narrow (withAcc 0x1FFFE)).cfg.accw ∧
    2 ^ (narrow (withAcc 0x1FFFF)).cfg.accw ≤ (0x1FFFF#32).toNat + (packIp 0#8 1#8 (withAcc 0x1FFFF).ctrl.ippad).toNat := by
  decide

/-- A byte that leaves by pairing, one that stays, and `FIN`. -/
theorem witness_FateOfAnUnpairedByte :
    (pending 0x12).pkv = true ∧
    step (State.facing (wide (pending 0x12)) 0x600034) = .next (wide (withAcc 0x1234)) ∧
    step (State.facing (wide (pending 0x12)) 0x000000) = .next (wide (pending 0x12)) ∧
    (decode 0x800000 = .command .fin ∧
      step (State.facing (wide (pending 0x12)) 0x800000) = .next (wide { pending 0x12 with fOdd := true })) :=
  ⟨by decide, rfl, rfl, by decide, rfl⟩

theorem witness_PayloadWordsAccumulateInOrder :
    (narrow (withAcc 0x10000)).block.fault = false ∧ (narrow (withAcc 0x10000)).block.pkv = false ∧
    (narrow (withAcc 0x10000)).block.pkb = 0#8 ∧
    (narrow (withAcc 0x10000)).block.acc.toNat +
      (([(0xFF, 0xFE), (0x00, 0x01)] : List (Byte × Byte)).map fun p => p.1.toNat * 256 + p.2.toNat).sum <
        2 ^ (narrow (withAcc 0x10000)).cfg.accw := by decide

theorem witness_AddwAddsOneWord :
    stopped.fault = true ∧ (withAcc 0x1FFFE).fault = false ∧ (withAcc 0x1FFFE).pkv = false ∧ (1#4 : RegNum) ≠ 0#4 ∧
    (0x0001#16 : Word) = 0x00#8 ++ 0x01#8 ∧
    (withAcc 0x1FFFE).acc.toNat + (1#16).toNat < 2 ^ (narrow (withAcc 0x1FFFE)).cfg.accw ∧
    2 ^ (narrow (withAcc 0x1FFFF)).cfg.accw ≤ (withAcc 0x1FFFF).acc.toNat + (1#16).toNat := by decide

/-- With all fields zero the header is 0x11: the largest `ACC` at which it fits 17 bits, and the next. -/
theorem witness_HdrAddsThePseudoHeader :
    stopped.fault = true ∧ (withAcc 0x1FFEE).fault = false ∧ ((1#4 : RegNum) ≠ 0#4 ∨ (0#16 : Word) ≠ 0#16) ∧
    exec .hdr (narrow (withAcc 0x1FFEE)) = .next (narrow (withAcc 0x1FFFF)) ∧
    exec .hdr (narrow (withAcc 0x1FFEF)) = .next (narrow { withAcc 0x1FFEF with fOvf := true }) :=
  ⟨by decide, by decide, by decide, rfl, rfl⟩

/-- Neither overflows; and both do, the sequence at its fifth command. -/
theorem witness_HdrIsTheNinePrimitives :
    (withAcc 0x1FFEE).fault = false ∧ (0x1FFEE#32).toNat < 2 ^ (narrow (withAcc 0x1FFEE)).cfg.accw ∧
    exec .hdr (narrow (withAcc 0x1FFEE)) = .next (narrow (withAcc 0x1FFFF)) ∧
    (narrow (withAcc 0x1FFEE)).perform [.addw 0, .addw 0, .addw 0, .addw 0, .addw 0x0011#16, .pkip 0 0, .pkip 0 0, .pkip 0 0,
      .pkip 0 0] = .next (narrow (withAcc 0x1FFFF)) ∧
    (0x1FFEF#32).toNat < 2 ^ (narrow (withAcc 0x1FFEF)).cfg.accw ∧
    exec .hdr (narrow (withAcc 0x1FFEF)) = .next (narrow { withAcc 0x1FFEF with fOvf := true }) ∧
    (narrow (withAcc 0x1FFEF)).perform [.addw 0, .addw 0, .addw 0, .addw 0, .addw 0x0011#16, .pkip 0 0, .pkip 0 0, .pkip 0 0,
      .pkip 0 0] = .next (narrow { withAcc 0x1FFEF with fOvf := true }) :=
  ⟨by decide, by decide, rfl, rfl, by decide, rfl, rfl⟩

/-- The largest sum, the largest unfolded one, and the smallest whose pass carries. -/
theorem witness_OneFoldPass : 0xFFFFFFFF < 2 ^ 32 ∧ 0xFFFF ≤ 0xFFFF ∧ 0x10000 ≤ fold1 0x1FFFF := by decide

/-- A pass that does not carry, and one that does. -/
theorem witness_FoldSinglePassOrLoop : 0x1FFFF < 2 ^ 32 ∧ fold1 0x1FFFE ≤ 0xFFFF ∧ 0xFFFF < fold1 0x1FFFF := by decide

theorem witness_ComplementDropsTwoBits : 0x3FFFF < 2 ^ 18 ∧ 0xFFFFFFFF < 2 ^ 32 := by decide

/-- One block for each clause, at either side of 0xFFFF. -/
theorem witness_FinDeliversTheResult :
    stopped.fault = true ∧ ((0#4 : RegNum) ≠ 0#4 ∨ (1#16 : Word) ≠ 0#16) ∧
    ((pending 0x12).fault = false ∧ (pending 0x12).pkv = true) ∧
    ((withAcc 0x10000).fault = false ∧ (withAcc 0x10000).pkv = false ∧ 0xFFFF < (withAcc 0x10000).acc.toNat) ∧
    ((withAcc 0xFFFF).fault = false ∧ (withAcc 0xFFFF).pkv = false ∧ (withAcc 0xFFFF).acc.toNat ≤ 0xFFFF ∧
      (withAcc 0xFFFF).ctrl.cplall = false) ∧
    ({ withAcc 0xFFFF with ctrl := ⟨false, true, false⟩ } : Block).ctrl.cplall = true := by decide

/-- One sum for each row of the table of R107: 0xFFFF; 0x10000; 0x1FFFE, whose pass just fits; 0x1FFFF, whose pass carries. -/
theorem witness_ResultInClosedForm :
    (withAcc 0xFFFF).fault = false ∧ (withAcc 0xFFFF).pkv = false ∧ (withAcc 0xFFFF).acc.toNat ≤ 0xFFFF ∧
    0xFFFF < (withAcc 0x10000).acc.toNat ∧ (withAcc 0x10000).ctrl.foldloop = false ∧
    ({ withAcc 0x1FFFE with ctrl := ⟨false, false, true⟩ } : Block).ctrl.foldloop = true ∧
    (0x1FFFE : Nat) % 65536 + 0x1FFFE / 65536 ≤ 0xFFFF ∧ 0xFFFF < (0x1FFFF : Nat) % 65536 + 0x1FFFF / 65536 := by decide

theorem witness_FinMayBeRepeated :
    exec .fin (wide (withAcc 0x10000)) =
      .next (wide { withAcc 0x10000 with res := 0xFFFE, done := true, folded := true, cpld := true }) ∧
    ({ withAcc 0x10000 with res := 0xFFFE, done := true, folded := true, cpld := true } : Block).fault = false ∧
    exec .fin (wide { withAcc 0x10000 with res := 0xFFFE, done := true, folded := true, cpld := true }) =
      .next (wide { withAcc 0x10000 with res := 0xFFFE, done := true, folded := true, cpld := true }) :=
  ⟨rfl, by decide, rfl⟩

/-- The header of the reset values and one payload word: sums on either side of 0xFFFF, both below the limit. -/
theorem witness_CanonicalSequenceGivesTheChecksum :
    (0x11 : Nat) + (0xFF * 256 + 0xEE) = 0xFFFF ∧ (0x11 : Nat) + (0xFF * 256 + 0xEF) = 0x10000 ∧
    (0x10000 : Nat) < 2 ^ (wide Block.reset).cfg.accw ∧ (wide Block.reset).block.ctrl.foldloop = false ∧
    (wide { Block.reset with ctrl := ⟨false, false, true⟩ }).block.ctrl.foldloop = true := by decide

/-- For each field the largest operand that fits and the smallest that does not, a named register, and the first and last of
`r0` to `r15`. -/
theorem witness_AssemblerNeverTruncates :
    assemble (.wr (.numbered 15) 65535) = some [.wr 15 0xFFFF] ∧ assemble (.wr (.numbered 16) 0) = none ∧
    assemble (.wr (.numbered 15) 65536) = none ∧ assemble (.rd (.numbered 16)) = none ∧
    assemble (.wr (.named .dip1) 65535) = some [.wr 6 0xFFFF] ∧ assemble (.wr (.named .dip1) 65536) = none ∧
    assemble (.rd (.named .pkb)) = some [.rd 12] ∧
    assemble (.pkip 255 255) = some [.pkip 255 255] ∧ assemble (.pkip 255 256) = none ∧ assemble (.pkip 256 255) = none ∧
    assemble (.pushb 255) = some [.pushb 0xFF] ∧ assemble (.pushb 256) = none ∧
    assemble (.addw 65535) = some [.addw 0xFFFF] ∧ assemble (.addw 65536) = none ∧
    register? "PKB".toList = some (.named .pkb) ∧ register? "r0".toList = some (.numbered 0) ∧
    register? "r15".toList = some (.numbered 15) := by decide

end Sys2Proof.Tests
end

section
/-! PROOFS. Scope (spec/00_scope.md): every command and every step answers a next state, and neither touches the environment. -/

namespace Sys2Proof.Machine

/-! ### What a step does with the next event -/

/-- With nothing presented the block holds its state (R6). -/
theorem step_idle {s : State} (h : s.inbox = []) : step s = .next s := by
  rw [step, State.nextEvent_nil h]

/-- A word that decodes to a command is that command performed (R7). -/
theorem step_command {s : State} {c : CmdWord} {rest : List Event} {i : Instr} (h : s.inbox = .cmd c :: rest)
    (hd : decode c = .command i) : step s = exec i (s.setInbox rest) := by
  rw [step_cmd h, hd]

theorem step_illegal {s : State} {c : CmdWord} {rest : List Event} {why : IllegalWord} (h : s.inbox = .cmd c :: rest)
    (hd : decode c = .illegal why) : step s = (s.setInbox rest).illegalWord := by
  rw [step_cmd h, hd]

/-! ### Totality -/

/-- The fault gate always answers a next state, whatever the gated command would do. -/
theorem State.attempt_total (s : State) (act : Except FaultBit Block) : ∃ t, s.attempt act = .next t := by
  cases hf : s.block.fault with
  | true => exact ⟨_, State.attempt_of_fault hf act⟩
  | false =>
    cases act with
    | ok b => exact ⟨_, State.attempt_ok hf b⟩
    | error f => exact ⟨_, State.attempt_error hf f⟩

/-- A command is ungated and answers a state outright, or answers through the gate. -/
theorem exec_total (i : Instr) (s : State) : ∃ t, exec i s = .next t := by
  cases i with
  | nop => exact ⟨_, rfl⟩
  | init => exact ⟨_, rfl⟩
  | wr n v =>
    simp only [exec, execWr]
    split
    · exact State.attempt_total _ _
    · exact State.attempt_total _ _
  | rd n =>
    simp only [exec, execRd]
    split
    · exact ⟨_, rfl⟩
    · exact State.attempt_total _ _
  | addw w => exact State.attempt_total _ _
  | pkip oFirst oSecond => exact State.attempt_total _ _
  | pushb b => exact State.attempt_total _ _
  | hdr => exact State.attempt_total _ _
  | fin => exact State.attempt_total _ _

theorem step_total (s : State) : ∃ t, step s = .next t := by
  rcases hb : s.inbox with _ | ⟨e, rest⟩
  · exact ⟨_, step_idle hb⟩
  · cases e with
    | rst => exact ⟨_, step_rst hb⟩
    | cmd c =>
      cases hd : decode c with
      | command i => rw [step_command hb hd]; exact exec_total i _
      | illegal why => rw [step_illegal hb hd]; exact State.attempt_total _ _

/-! ### The environment -/

/-- Whatever a command does, it does to the block alone. -/
theorem Effect.eq_setBlock {i : Instr} {s t : State} (h : Effect i s t) : ∃ b, t = s.setBlock b := by
  cases h with
  | same _ => exact ⟨s.block, rfl⟩
  | _ => exact ⟨_, rfl⟩

theorem exec_environment {i : Instr} {s t : State} (h : exec i s = .next t) : t.cfg = s.cfg ∧ t.inbox = s.inbox := by
  obtain ⟨b, rfl⟩ := (exec_effect h).eq_setBlock
  exact ⟨rfl, rfl⟩

theorem step_environment {s t : State} (h : step s = .next t) : t.cfg = s.cfg ∧ t.inbox = s.inbox.tail := by
  rcases step_cases h with ⟨hb, rfl⟩ | ⟨rest, hb, rfl⟩ | ⟨c, rest, i, hb, -, he⟩ | ⟨c, rest, why, hb, -, -, rfl⟩ |
    ⟨c, rest, why, hb, -, -, rfl⟩
  case inr.inr.inl => simpa [hb] using exec_environment he
  all_goals simp [hb]

/-! ### The obligations -/

/-- Settles O11, by `exec_total` and `step_total`. -/
theorem nothingStopsTheMachine : Obligations.NothingStopsTheMachine :=
  ⟨exec_total, step_total⟩

/-- Settles O12: a command's effect is on the block alone, and every kind of step takes just the event it performs. -/
theorem stepsLeaveTheEnvironmentAlone : Obligations.StepsLeaveTheEnvironmentAlone :=
  ⟨fun _ _ _ => exec_environment, fun _ _ => step_environment⟩

/-- Settles O8, by `step_command`. -/
theorem stepPerformsTheDecodedCommand : Obligations.StepPerformsTheDecodedCommand :=
  fun _ _ _ _ => step_command

/-- Settles O10, by `step_idle`. -/
theorem idleBlockHoldsItsState : Obligations.IdleBlockHoldsItsState :=
  fun _ => step_idle

end Sys2Proof.Machine
end

section
/-! PROOFS. The invariant of the state (spec/10_state.md R29, R31, R25 to R27, R32): every update of the block that a step makes
keeps it, so every command and every step does. -/

namespace Sys2Proof.Machine

/-! ### Each update of the block -/

theorem Block.inv_reset (cfg : Config) : Block.reset.Inv cfg where
  acc_fits := Nat.two_pow_pos _
  packer_empty _ := rfl
  one_fault := by decide
  no_result _ := ⟨rfl, rfl, rfl⟩
  folded_cpld := id

/-- Starting a run clears everything the invariant speaks of, so nothing is asked of the block before. -/
theorem Block.inv_startRun (cfg : Config) (b : Block) : b.startRun.Inv cfg where
  acc_fits := Nat.two_pow_pos _
  packer_empty _ := rfl
  one_fault := by simp
  no_result _ := ⟨rfl, rfl, rfl⟩
  folded_cpld := id

section updates
variable {cfg : Config} {b : Block}

/-- A fault bit raised while none was set is the only one (R128). -/
theorem Block.Inv.raise (h : b.Inv cfg) (hf : b.fault = false) (f : FaultBit) : (b.raise f).Inv cfg := by
  obtain ⟨hovf, hodd, hill⟩ := (Block.fault_eq_false_iff b).1 hf
  cases f with
  | ovf => exact ⟨h.acc_fits, h.packer_empty, by simp [hodd, hill], h.no_result, h.folded_cpld⟩
  | odd => exact ⟨h.acc_fits, h.packer_empty, by simp [hovf, hill], h.no_result, h.folded_cpld⟩
  | ill => exact ⟨h.acc_fits, h.packer_empty, by simp [hovf, hodd], h.no_result, h.folded_cpld⟩

/-- A sum below the limit may be stored (R91). -/
theorem Block.Inv.setAcc (h : b.Inv cfg) {a : BitVec 32} (ha : a.toNat < accLimit cfg) : (b.setAcc a).Inv cfg :=
  { h with acc_fits := ha }

/-- The packer may take any byte, but the byte 0 alone when it is left empty (R31). -/
theorem Block.Inv.setPacker (h : b.Inv cfg) {k : Byte} {v : Bool} (hk : v = false → k = 0) : (b.setPacker k v).Inv cfg :=
  { h with packer_empty := hk }

theorem Block.Inv.setRdata (h : b.Inv cfg) (w : Word) : (b.setRdata w).Inv cfg :=
  { h with }

/-- A completed `FIN` may deliver any result whose flags say that a folded sum was complemented (R106). -/
theorem Block.Inv.setResult (h : b.Inv cfg) (r : Word) {f c : Bool} (hc : f = true → c = true) : (b.setResult r f c).Inv cfg :=
  { h with no_result := fun hd => absurd hd (by simp), folded_cpld := hc }

/-- A register write keeps every item the invariant speaks of. -/
theorem Block.Inv.of_writeKeeps {b' : Block} {n : RegNum} {v : Word} (h : b.Inv cfg) (hw : WriteKeeps n v b b') :
    b'.Inv cfg where
  acc_fits := by rw [hw.acc]; exact h.acc_fits
  packer_empty := by rw [hw.pkv, hw.pkb]; exact h.packer_empty
  one_fault := by rw [hw.fOvf, hw.fOdd, hw.fIll]; exact h.one_fault
  no_result := by rw [hw.done, hw.res, hw.folded, hw.cpld]; exact h.no_result
  folded_cpld := by rw [hw.folded, hw.cpld]; exact h.folded_cpld

end updates

/-- `FIN` complements whenever it folds (R105). -/
theorem finCpld_of_finFolded {n : Nat} (cplall : Bool) (h : finFolded n = true) : finCpld n cplall = true := by
  simp [finCpld, h]

/-! ### Commands and steps -/

theorem Effect.inv {i : Instr} {s t : State} (h : Effect i s t) (hs : s.Inv) : t.Inv := by
  cases h with
  | same _ => exact hs
  | started _ => exact Block.inv_startRun _ _
  | wrote _ _ _ _ _ _ hw => exact hs.of_writeKeeps hw
  | refusedWrite _ _ _ hf _ => exact hs.raise hf .ill
  | read _ v _ _ => exact hs.setRdata v
  | refusedRead _ _ hf _ => exact hs.raise hf .ill
  | added _ _ _ _ _ ha => exact hs.setAcc ha
  | overflowed _ _ hf _ => exact hs.raise hf .ovf
  | held _ _ _ _ => exact hs.setPacker (by simp)
  | paired _ _ _ _ _ _ ha => exact (hs.setAcc ha).setPacker (fun _ => rfl)
  | finished _ _ _ => exact hs.setResult _ (finCpld_of_finFolded _)
  | oddPayload _ hf _ => exact hs.raise hf .odd

theorem exec_inv {i : Instr} {s t : State} (hs : s.Inv) (h : exec i s = .next t) : t.Inv :=
  (exec_effect h).inv hs

theorem step_inv {s t : State} (hs : s.Inv) (h : step s = .next t) : t.Inv := by
  rcases step_cases h with ⟨-, rfl⟩ | ⟨rest, -, rfl⟩ | ⟨c, rest, i, -, -, he⟩ | ⟨c, rest, why, -, -, -, rfl⟩ |
    ⟨c, rest, why, -, -, hf, rfl⟩
  case inl => exact hs
  case inr.inl => exact Block.inv_reset _
  case inr.inr.inl => exact exec_inv (s := s.setInbox rest) hs he
  case inr.inr.inr.inl => exact hs
  case inr.inr.inr.inr => exact hs.raise hf .ill

/-! ### The obligation -/

/-- Settles O21, by `step_inv`: each event makes one of the updates above. -/
theorem everyStepKeepsTheInvariant : Obligations.EveryStepKeepsTheInvariant :=
  fun _ _ => step_inv

end Sys2Proof.Machine
end

section
/-! PROOFS. The mode bits (spec/10_state.md R21, R119): a command runs the same under other mode bits, unless it reads them. Changing
the mode bits by a function `f` is carried through each shared operation and then through each command. -/

namespace Sys2Proof.Machine

/-! ### The same block with other mode bits -/

def Block.mapCtrl (f : Ctrl → Ctrl) (b : Block) : Block := b.setCtrl (f b.ctrl)

def State.mapCtrl (f : Ctrl → Ctrl) (s : State) : State := s.setBlock (s.block.mapCtrl f)

section other_modes
variable (f : Ctrl → Ctrl) (b : Block) (s : State)

@[simp] theorem State.mapCtrl_block : (s.mapCtrl f).block = s.block.mapCtrl f := rfl
@[simp] theorem State.mapCtrl_cfg : (s.mapCtrl f).cfg = s.cfg := rfl
@[simp] theorem Block.mapCtrl_acc : (b.mapCtrl f).acc = b.acc := rfl
@[simp] theorem Block.mapCtrl_pkb : (b.mapCtrl f).pkb = b.pkb := rfl
@[simp] theorem Block.mapCtrl_pkv : (b.mapCtrl f).pkv = b.pkv := rfl
@[simp] theorem Block.mapCtrl_ctrl : (b.mapCtrl f).ctrl = f b.ctrl := rfl
@[simp] theorem Block.mapCtrl_fault : (b.mapCtrl f).fault = b.fault := rfl

theorem State.setBlock_mapCtrl : (s.setBlock b).mapCtrl f = (s.mapCtrl f).setBlock (b.mapCtrl f) := rfl

theorem Block.raise_mapCtrl (k : FaultBit) : (b.mapCtrl f).raise k = (b.raise k).mapCtrl f := by
  cases k <;> rfl

/-! ### The shared operations -/

/-- The gate passes a command that runs the same under other mode bits. -/
theorem State.attempt_mapCtrl {f : Ctrl → Ctrl} {s t : State} {act : Except FaultBit Block} (h : s.attempt act = .next t) :
    (s.mapCtrl f).attempt (act.map (Block.mapCtrl f)) = .next (t.mapCtrl f) := by
  rcases State.attempt_cases h with ⟨hf, rfl⟩ | ⟨hf, b, rfl, rfl⟩ | ⟨hf, k, rfl, rfl⟩
  · exact State.attempt_of_fault (s := t.mapCtrl f) hf _
  · exact State.attempt_ok (s := s.mapCtrl f) hf _
  · rw [State.setBlock_mapCtrl, ← Block.raise_mapCtrl]
    exact State.attempt_error (s := s.mapCtrl f) hf k

/-- Accumulating reads no mode bit: they matter only to the words that are added. -/
theorem Block.accumulate_mapCtrl (cfg : Config) (ws : List Word) :
    (b.mapCtrl f).accumulate cfg ws = (b.accumulate cfg ws).map (Block.mapCtrl f) := by
  rcases Nat.lt_or_ge (b.acc.toNat + (ws.map BitVec.toNat).sum) (accLimit cfg) with h | h
  · rw [Block.accumulate_ok h, Block.accumulate_ok (b := b.mapCtrl f) h]
    rfl
  · rw [Block.accumulate_error h, Block.accumulate_error (b := b.mapCtrl f) h]
    rfl

theorem Block.pushByte_mapCtrl (cfg : Config) (x : Byte) :
    (b.mapCtrl f).pushByte cfg x = (b.pushByte cfg x).map (Block.mapCtrl f) := by
  simp only [Block.pushByte, Block.accumulate_mapCtrl, Block.mapCtrl_pkv, Block.mapCtrl_pkb]
  split
  · cases b.accumulate cfg [packPl b.pkb x] <;> rfl
  · rfl

/-- `FIN` reads `CPLALL` and `FOLDLOOP` alone (R107). -/
theorem Block.finish_mapCtrl (hc : (f b.ctrl).cplall = b.ctrl.cplall) (hl : (f b.ctrl).foldloop = b.ctrl.foldloop) :
    (b.mapCtrl f).finish = b.finish.map (Block.mapCtrl f) := by
  simp only [Block.finish, finResult, Block.mapCtrl_pkv, Block.mapCtrl_acc, Block.mapCtrl_ctrl, hc, hl]
  split <;> rfl

/-- `HDR` reads `IPPAD` alone (R81). -/
theorem hdrAddends_mapCtrl (hp : (f b.ctrl).ippad = b.ctrl.ippad) : hdrAddends (b.mapCtrl f) = hdrAddends b := by
  simp only [hdrAddends, Block.mapCtrl_ctrl, hp]
  rfl

theorem regOfNumber_eq_ctrl_iff (n : RegNum) : regOfNumber n = some .ctrl ↔ n = 7#4 := by
  revert n
  decide

theorem Block.readNumber_mapCtrl (cfg : Config) {n : RegNum} (hn : n ≠ 7#4) :
    (b.mapCtrl f).readNumber cfg n = b.readNumber cfg n := by
  have hr : regOfNumber n ≠ some .ctrl := fun h => hn ((regOfNumber_eq_ctrl_iff n).1 h)
  cases hreg : regOfNumber n with
  | none => simp only [Block.readNumber, hreg, Option.map_none]
  | some r =>
    simp only [Block.readNumber, hreg, Option.map_some]
    cases r with
    | ctrl => exact absurd hreg hr
    | _ => rfl

theorem Block.writeNumber_mapCtrl {n : RegNum} (v : Word) (hn : n ≠ 7#4) :
    (b.mapCtrl f).writeNumber n v = (b.writeNumber n v).map (Block.mapCtrl f) := by
  have hr : regOfNumber n ≠ some .ctrl := fun h => hn ((regOfNumber_eq_ctrl_iff n).1 h)
  cases hreg : regOfNumber n with
  | none => simp only [Block.writeNumber, hreg, Option.map_none]
  | some r =>
    simp only [Block.writeNumber, hreg]
    cases r with
    | ctrl => exact absurd hreg hr
    | _ => rfl

end other_modes

/-! ### The commands -/

/-- `f` changes no mode bit that the command reads or writes. -/
def KeepsModesOf (f : Ctrl → Ctrl) : Instr → Prop
  | .wr n _ => n ≠ 7#4
  | .rd n => n ≠ 7#4
  | .pkip _ _ => ∀ c, (f c).ippad = c.ippad
  | .hdr => ∀ c, (f c).ippad = c.ippad
  | .fin => ∀ c, (f c).cplall = c.cplall ∧ (f c).foldloop = c.foldloop
  | _ => True

theorem exec_mapCtrl {f : Ctrl → Ctrl} {i : Instr} {s t : State} (hk : KeepsModesOf f i) (h : exec i s = .next t) :
    exec i (s.mapCtrl f) = .next (t.mapCtrl f) := by
  cases i with
  | nop => cases h; rfl
  | init => cases h; rfl
  | wr n v =>
    simp only [exec, execWr, State.mapCtrl_block, Block.writeNumber_mapCtrl f s.block v hk] at h ⊢
    cases hw : s.block.writeNumber n v with
    | none => rw [hw] at h; exact State.attempt_mapCtrl h
    | some b => rw [hw] at h; exact State.attempt_mapCtrl h
  | rd n =>
    simp only [exec, execRd, State.mapCtrl_block, State.mapCtrl_cfg, Block.readNumber_mapCtrl f s.block s.cfg hk] at h ⊢
    cases hr : s.block.readNumber s.cfg n with
    | none => rw [hr] at h; exact State.attempt_mapCtrl h
    | some v => rw [hr] at h; cases h; rfl
  | addw w =>
    have h' := State.attempt_mapCtrl (f := f) h
    rwa [← Block.accumulate_mapCtrl] at h'
  | pkip o1 o2 =>
    have h' := State.attempt_mapCtrl (f := f) h
    rwa [← Block.accumulate_mapCtrl, ← hk s.block.ctrl] at h'
  | pushb x =>
    have h' := State.attempt_mapCtrl (f := f) h
    rwa [← Block.pushByte_mapCtrl] at h'
  | hdr =>
    have h' := State.attempt_mapCtrl (f := f) h
    rwa [← Block.accumulate_mapCtrl, ← hdrAddends_mapCtrl f s.block (hk _)] at h'
  | fin =>
    have h' := State.attempt_mapCtrl (f := f) h
    rwa [← Block.finish_mapCtrl f s.block (hk _).1 (hk _).2] at h'

/-! ### The obligation -/

def withIppad (p : Bool) (c : Ctrl) : Ctrl := { c with ippad := p }

def withFoldModes (p q : Bool) (c : Ctrl) : Ctrl := { c with cplall := p, foldloop := q }

theorem keepsModesOf_withIppad {i : Instr} (hwr : ∀ v, i ≠ .wr 7#4 v) (hrd : i ≠ .rd 7#4) (hpkip : ∀ o1 o2, i ≠ .pkip o1 o2)
    (hhdr : i ≠ .hdr) (p : Bool) : KeepsModesOf (withIppad p) i := by
  cases i with
  | wr n v => rintro rfl; exact hwr v rfl
  | rd n => rintro rfl; exact hrd rfl
  | pkip o1 o2 => exact absurd rfl (hpkip o1 o2)
  | hdr => exact absurd rfl hhdr
  | fin => exact fun _ => ⟨rfl, rfl⟩
  | _ => trivial

theorem keepsModesOf_withFoldModes {i : Instr} (hwr : ∀ v, i ≠ .wr 7#4 v) (hrd : i ≠ .rd 7#4) (hfin : i ≠ .fin) (p q : Bool) :
    KeepsModesOf (withFoldModes p q) i := by
  cases i with
  | wr n v => rintro rfl; exact hwr v rfl
  | rd n => rintro rfl; exact hrd rfl
  | pkip o1 o2 => exact fun _ => rfl
  | hdr => exact fun _ => rfl
  | fin => exact absurd rfl hfin
  | _ => trivial

/-- Settles O24: of a command that neither writes nor reads register 7, `IPPAD` or the other two bits are kept unless it reads
them, so `exec_mapCtrl` applies. -/
theorem modeBitsMatterOnlyWhereRead : Obligations.ModeBitsMatterOnlyWhereRead :=
  fun _ _ _ hwr hrd h =>
    ⟨fun hpkip hhdr p => exec_mapCtrl (keepsModesOf_withIppad hwr hrd hpkip hhdr p) h,
     fun hfin p q => exec_mapCtrl (keepsModesOf_withFoldModes hwr hrd hfin p q) h⟩

end Sys2Proof.Machine
end

section
/-! PROOFS. What a reader of the block sees: the accumulator through its two halves (spec/10_state.md R30), and the output ports
(R23, R34). -/

namespace Sys2Proof.Machine

/-! ### The two halves of the accumulator -/

/-- `ACCH` of an accumulator that fits is its high half, whatever `ACCW` is. -/
theorem accHigh_of_fits {cfg : Config} {a : BitVec 32} (h : a.toNat < accLimit cfg) : accHigh cfg a = a.extractLsb' 16 16 := by
  apply BitVec.eq_of_toNat_eq
  simp only [accHigh, Nat.mod_eq_of_lt h, BitVec.toNat_ofNat, BitVec.extractLsb'_toNat, Nat.shiftRight_eq_div_pow]

/-- The bits of `ACCH` that `ACC` does not have. -/
theorem accHigh_getLsbD_of_missing {cfg : Config} {a : BitVec 32} {k : Nat} (h : a.toNat < accLimit cfg)
    (hk : cfg.accw ≤ 16 + k) : (accHigh cfg a).getLsbD k = false := by
  have hlt : a.toNat < 2 ^ (16 + k) := lt_of_lt_of_le h (Nat.pow_le_pow_right (by decide) hk)
  rw [accHigh_of_fits h, BitVec.getLsbD_extractLsb', BitVec.getLsbD, Nat.testBit_lt_two_pow hlt, Bool.and_false]

theorem accHigh_accLow_toNat {cfg : Config} {a : BitVec 32} (h : a.toNat < accLimit cfg) :
    (accHigh cfg a).toNat * 65536 + (accLow a).toNat = a.toNat := by
  simp only [accHigh_of_fits h, accLow, BitVec.extractLsb'_toNat, Nat.shiftRight_eq_div_pow]
  omega

/-! ### The commands that name a half -/

theorem exec_rd_accl (s : State) : exec (.rd 9#4) s = .next (s.setBlock (s.block.setRdata (accLow s.block.acc))) := rfl

theorem exec_rd_acch (s : State) : exec (.rd 10#4) s = .next (s.setBlock (s.block.setRdata (accHigh s.cfg s.block.acc))) := rfl

/-- `WR` of a read-only register, or of no register, raises `F_ILL` (R43, R117). -/
theorem exec_wr_readOnly {s : State} {n : RegNum} (v : Word) (hf : s.block.fault = false) (hn : 8 ≤ n.toNat) :
    exec (.wr n v) s = .next (s.setBlock (s.block.raise .ill)) := by
  simp only [exec, execWr, Block.writeNumber_readOnly hn]
  exact State.attempt_error hf .ill

/-! ### The output ports -/

/-- The bits of `STATUS` up to the last one in use, bit 0 first (R23). -/
def Block.statusBits (b : Block) : List Bool :=
  [b.pkv, b.done, b.folded, b.cpld, false, false, false, false, b.fOvf, b.fOdd, b.fIll]

/-- `STATUS` is its list of bits, and 0 beyond the end of the list. -/
theorem Block.status_getLsbD (b : Block) (k : Nat) : b.status.getLsbD k = b.statusBits.getD k false := by
  rcases Nat.lt_or_ge k 16 with hk | hk
  · simp only [Block.status, BitVec.getLsbD_append, BitVec.getLsbD_ofBool]
    interval_cases k <;> rfl
  · have hlen : b.statusBits.length ≤ k := le_trans (by simp [Block.statusBits]) hk
    rw [BitVec.getLsbD_of_ge _ _ hk, List.getD_eq_default _ _ hlen]

theorem Block.fault_eq_true_iff (b : Block) : b.fault = true ↔ b.fOvf = true ∨ b.fOdd = true ∨ b.fIll = true := by
  simp [Block.fault, or_assoc]

/-! ### The obligations -/

/-- Settles O35: the invariant says that `ACC` fits, so its halves are what the two reads put in `RDATA`. -/
theorem accumulatorReadsThroughTwoHalves : Obligations.AccumulatorReadsThroughTwoHalves := by
  intro s hs
  have hfits : s.block.acc.toNat < accLimit s.cfg := hs.acc_fits
  refine ⟨fun t h => ?_, ⟨_, _, exec_rd_accl s, exec_rd_acch _, accHigh_accLow_toNat hfits⟩, fun n v hf hn => ?_⟩
  · cases h
    exact ⟨fun _ => accHigh_of_fits hfits, fun _ => accHigh_getLsbD_of_missing hfits⟩
  · rcases hn with rfl | rfl
    · exact exec_wr_readOnly v hf (by decide)
    · exact exec_wr_readOnly v hf (by decide)

/-- Settles O30: four outputs are fields or `fault` itself, and each bit of `STATUS` is read off its list of bits. -/
theorem outputsAreViewsOfState : Obligations.OutputsAreViewsOfState := by
  intro b
  have hbit := b.status_getLsbD
  refine ⟨rfl, rfl, rfl, b.fault_eq_true_iff, hbit 0, hbit 1, hbit 2, hbit 3, hbit 8, hbit 9, hbit 10, fun k hk => ?_⟩
  refine (hbit k).trans ?_
  rcases hk with ⟨hge, hle⟩ | hge
  · interval_cases k <;> rfl
  · exact List.getD_eq_default _ _ hge

end Sys2Proof.Machine
end

section
/-! PROOFS. The encoder undone by the decoder (spec/30_encoding.md R56, R58). -/

namespace Sys2Proof

theorem decode_encode (i : Instr) : decode (encode i) = .command i := by
  cases i with
  | wr n v => exact decode_wordOf 0x2#4 n v
  | rd n => exact decode_wordOf 0x3#4 n 0#16
  | addw w => exact decode_wordOf 0x4#4 0#4 w
  | pkip o1 o2 => simp [encode, decode_wordOf, whenZero]
  | pushb b => simp [encode, decode_wordOf, whenZero]
  | _ => rfl

end Sys2Proof
end

section
/-! PROOFS. Commands performed one after another (spec/20_memory.md R51): performing a list is executing its commands in turn, and
payload bytes pushed in order add their words to `ACC` (R44, R47, R77). -/

namespace Sys2Proof.Machine

/-! ### What waits behind a command does not matter to it -/

theorem State.attempt_setInbox {s t : State} {act : Except FaultBit Block} (es : List Event) (h : s.attempt act = .next t) :
    (s.setInbox es).attempt act = .next (t.setInbox es) := by
  rcases State.attempt_cases h with ⟨hf, rfl⟩ | ⟨hf, b, rfl, rfl⟩ | ⟨hf, f, rfl, rfl⟩
  · exact State.attempt_of_fault (s := t.setInbox es) hf act
  · exact State.attempt_ok (s := s.setInbox es) hf b
  · exact State.attempt_error (s := s.setInbox es) hf f

theorem exec_setInbox {i : Instr} {s t : State} (es : List Event) (h : exec i s = .next t) :
    exec i (s.setInbox es) = .next (t.setInbox es) := by
  cases i with
  | nop => cases h; rfl
  | init => cases h; rfl
  | wr n v =>
    simp only [exec, execWr, State.setInbox_block] at h ⊢
    cases hw : s.block.writeNumber n v with
    | none => rw [hw] at h; exact State.attempt_setInbox es h
    | some b => rw [hw] at h; exact State.attempt_setInbox es h
  | rd n =>
    simp only [exec, execRd, State.setInbox_block, State.setInbox_cfg] at h ⊢
    cases hr : s.block.readNumber s.cfg n with
    | none => rw [hr] at h; exact State.attempt_setInbox es h
    | some v => rw [hr] at h; cases h; rfl
  | addw w => exact State.attempt_setInbox es h
  | pkip o1 o2 => exact State.attempt_setInbox es h
  | pushb b => exact State.attempt_setInbox es h
  | hdr => exact State.attempt_setInbox es h
  | fin => exact State.attempt_setInbox es h

/-! ### Performing a list of commands -/

@[simp] theorem State.perform_nil (s : State) : s.perform [] = .next s := rfl

theorem exec_present {i : Instr} {s t : State} (is : List Instr) (h : exec i s = .next t) :
    exec i (s.present is) = .next (t.present is) := by
  rw [State.present, State.present, (exec_environment h).2]
  exact exec_setInbox _ h

/-- The step on the first of the presented words executes the first command, and the others stay presented. -/
theorem step_present_cons {i : Instr} {s t : State} (is : List Instr) (h : exec i s = .next t) :
    step (s.present (i :: is)) = .next (t.present is) := by
  have hword : (s.present (i :: is)).inbox = .cmd (encode i) :: (s.present is).inbox := rfl
  rw [step_command hword (decode_encode i)]
  exact exec_present is h

/-- Performing a list executes its first command and performs the others from there. -/
theorem State.perform_cons {i : Instr} {s t : State} (is : List Instr) (h : exec i s = .next t) :
    s.perform (i :: is) = t.perform is :=
  run_succ core is.length _ _ (step_present_cons is h)

theorem State.perform_append {s t : State} {is : List Instr} (js : List Instr) (h : s.perform is = .next t) :
    s.perform (is ++ js) = t.perform js := by
  induction is generalizing s with
  | nil => cases h; rfl
  | cons i is ih =>
    obtain ⟨u, hu⟩ := exec_total i s
    rw [State.perform_cons is hu] at h
    rw [List.cons_append, State.perform_cons _ hu, ih h]

/-! ### Pushing payload bytes -/

/-- The payload bytes of a list of pairs, pushed in order. -/
def pushPairs (payload : List (Byte × Byte)) : List Instr :=
  payload.flatMap fun p => [.pushb p.1, .pushb p.2]

/-- The sum of the payload words of a list of pairs, the first byte of each pair the high half (R75). -/
def payloadSum (payload : List (Byte × Byte)) : Nat :=
  (payload.map fun p => p.1.toNat * 256 + p.2.toNat).sum

theorem pushPairs_cons (p : Byte × Byte) (ps : List (Byte × Byte)) :
    pushPairs (p :: ps) = .pushb p.1 :: .pushb p.2 :: pushPairs ps := rfl

theorem payloadSum_cons (p : Byte × Byte) (ps : List (Byte × Byte)) :
    payloadSum (p :: ps) = (packPl p.1 p.2).toNat + payloadSum ps := by
  rw [packPl, append_toNat]
  rfl

/-- With the packer empty, a byte is held (R77). -/
theorem exec_pushb_of_empty {s : State} (x : Byte) (hf : s.block.fault = false) (hv : s.block.pkv = false) :
    exec (.pushb x) s = .next (s.setBlock (s.block.setPacker x true)) := by
  have hpush : s.block.pushByte s.cfg x = .ok (s.block.setPacker x true) := by simp [Block.pushByte, hv]
  rw [exec, execPushb, hpush, State.attempt_ok hf]

/-- With a byte pending, a byte is paired with it and the word added where it fits (R77). -/
theorem exec_pushb_of_pending {s : State} (x : Byte) (hf : s.block.fault = false) (hv : s.block.pkv = true)
    (hfit : s.block.acc.toNat + (packPl s.block.pkb x).toNat < accLimit s.cfg) :
    exec (.pushb x) s = .next (s.setBlock
      ((s.block.setAcc (BitVec.ofNat 32 (s.block.acc.toNat + (packPl s.block.pkb x).toNat))).setPacker 0 false)) := by
  have hadd := Block.accumulate_ok (cfg := s.cfg) (b := s.block) (ws := [packPl s.block.pkb x]) (by simpa using hfit)
  rw [exec, execPushb, Block.pushByte, if_pos hv, hadd, List.map_singleton, List.sum_singleton]
  exact State.attempt_ok hf _

/-- A block with an empty packer is left as it was by a byte held and let go, but for the word added. -/
theorem Block.setPacker_setAcc_setPacker {b : Block} (x : Byte) (a : BitVec 32) (hv : b.pkv = false) (hb : b.pkb = 0#8) :
    ((b.setPacker x true).setAcc a).setPacker 0 false = b.setAcc a := by
  rw [← hv, show (0 : Byte) = b.pkb from hb.symm]
  rfl

/-- The bytes of one pair pushed from an empty packer add their word and leave the packer empty. -/
theorem State.perform_pushb_pushb {s : State} (x y : Byte) (is : List Instr) (hf : s.block.fault = false)
    (hv : s.block.pkv = false) (hb : s.block.pkb = 0#8)
    (hfit : s.block.acc.toNat + (packPl x y).toNat < accLimit s.cfg) :
    s.perform (.pushb x :: .pushb y :: is) =
      (s.setBlock (s.block.setAcc (BitVec.ofNat 32 (s.block.acc.toNat + (packPl x y).toNat)))).perform is := by
  have hpair := exec_pushb_of_pending (s := s.setBlock (s.block.setPacker x true)) y hf rfl hfit
  rw [State.perform_cons _ (exec_pushb_of_empty x hf hv), State.perform_cons _ hpair]
  exact congrArg (fun b => (s.setBlock b).perform is) (Block.setPacker_setAcc_setPacker x _ hv hb)

theorem State.perform_pushPairs {s : State} (payload : List (Byte × Byte)) (hf : s.block.fault = false)
    (hv : s.block.pkv = false) (hb : s.block.pkb = 0#8)
    (hfit : s.block.acc.toNat + payloadSum payload < accLimit s.cfg) :
    s.perform (pushPairs payload) =
      .next (s.setBlock (s.block.setAcc (BitVec.ofNat 32 (s.block.acc.toNat + payloadSum payload)))) := by
  induction payload generalizing s with
  | nil =>
    have hacc : BitVec.ofNat 32 (s.block.acc.toNat + payloadSum []) = s.block.acc := by simp [payloadSum]
    rw [hacc]
    rfl
  | cons p ps ih =>
    rw [payloadSum_cons, ← Nat.add_assoc] at hfit ⊢
    have hfirst : s.block.acc.toNat + (packPl p.1 p.2).toNat < accLimit s.cfg := by omega
    have hacc : (BitVec.ofNat 32 (s.block.acc.toNat + (packPl p.1 p.2).toNat)).toNat =
        s.block.acc.toNat + (packPl p.1 p.2).toNat := by
      rw [BitVec.toNat_ofNat, Nat.mod_eq_of_lt (lt_of_lt_of_le hfirst (accLimit_le s.cfg))]
    rw [pushPairs_cons, State.perform_pushb_pushb p.1 p.2 _ hf hv hb hfirst, ih]
    · simp only [State.setBlock_block, Block.setAcc_acc, hacc]
      rfl
    · exact hf
    · exact hv
    · exact hb
    · simpa only [State.setBlock_block, State.setBlock_cfg, Block.setAcc_acc, hacc] using hfit

/-! ### The obligations -/

/-- Settles O13, by induction on the first list: each of its commands is executed before any of the second. -/
theorem commandsTakeEffectInOrder : Obligations.CommandsTakeEffectInOrder :=
  fun _ _ _ js => State.perform_append js

/-- Settles O41, by induction on the payload: each pair adds its word and leaves the packer empty for the next one. -/
theorem payloadWordsAccumulateInOrder : Obligations.PayloadWordsAccumulateInOrder :=
  fun _ payload => State.perform_pushPairs payload

end Sys2Proof.Machine
end

section
/-! PROOFS. The decoder and the encoder (spec/30_encoding.md R56 to R61): a word decodes to a command exactly when it is the word of
that command, and all that the opcode map and the reserved fields say follows from it. -/

namespace Sys2Proof

/-! ### A command has one word -/

/-- Each opcode's must-be-zero check leaves only the word that the encoder writes (R61). -/
theorem encode_of_decode {c : CmdWord} {i : Instr} (h : decode c = .command i) : encode i = c := by
  obtain ⟨op, rn, imm, rfl⟩ := exists_wordOf c
  rw [decode_wordOf] at h
  split at h <;> simp only [whenZero_eq_command_iff, Bool.and_eq_true, beq_iff_eq, Decoded.command.injEq, reduceCtorEq] at h
  case h_3 => rw [← h]; rfl
  case h_4 => obtain ⟨rfl, rfl⟩ := h; rfl
  case h_5 => obtain ⟨rfl, rfl⟩ := h; rfl
  case h_6 =>
    obtain ⟨rfl, rfl⟩ := h
    rw [encode, highByte_append_lowByte]
  case h_7 =>
    obtain ⟨⟨rfl, hb⟩, rfl⟩ := h
    rw [encode, ← hb, highByte_append_lowByte]
  all_goals
    obtain ⟨⟨rfl, rfl⟩, rfl⟩ := h
    rfl

theorem decode_eq_command_iff (c : CmdWord) (i : Instr) : decode c = .command i ↔ c = encode i :=
  ⟨fun h => (encode_of_decode h).symm, fun h => h ▸ decode_encode i⟩

/-- The decoder is total: a word that is no command is illegal (R58). -/
theorem exists_illegal_of_no_command {c : CmdWord} (h : ∀ i, decode c ≠ .command i) : ∃ why, decode c = .illegal why := by
  cases hd : decode c with
  | command i => exact absurd hd (h i)
  | illegal why => exact ⟨why, rfl⟩

/-! ### A word is its fields, and so is a word under a mask -/

theorem eq_wordOf_iff (c : CmdWord) (op : BitVec 4) (rn : RegNum) (imm : Word) :
    c = wordOf op rn imm ↔ opField c = op ∧ rnField c = rn ∧ immField c = imm := by
  rw [← wordOf_inj, wordOf_fields]

theorem and_wordOf_eq_wordOf_iff (c : CmdWord) (op op' : BitVec 4) (rn rn' : RegNum) (imm imm' : Word) :
    c &&& wordOf op rn imm = wordOf op' rn' imm' ↔
      opField c &&& op = op' ∧ rnField c &&& rn = rn' ∧ immField c &&& imm = imm' := by
  rw [← wordOf_inj, ← wordOf_and, wordOf_fields]

/-! The five masks of the map, each with the fields it leaves open. -/

theorem eq_of_and_all {c c' : CmdWord} (h : c &&& 0xFFFFFF#24 = c') : c = c' :=
  BitVec.and_allOnes.symm.trans h

theorem eq_wordOf_of_and_op {c : CmdWord} {op : BitVec 4} (h : c &&& 0xF00000#24 = wordOf op 0#4 0#16) :
    c = wordOf op (rnField c) (immField c) := by
  obtain ⟨hop, -, -⟩ := (and_wordOf_eq_wordOf_iff c (.allOnes 4) op 0#4 0#4 0#16 0#16).1 h
  exact (eq_wordOf_iff c _ _ _).2 ⟨BitVec.and_allOnes.symm.trans hop, rfl, rfl⟩

theorem eq_wordOf_of_and_op_imm {c : CmdWord} {op : BitVec 4} {imm : Word} (h : c &&& 0xF0FFFF#24 = wordOf op 0#4 imm) :
    c = wordOf op (rnField c) imm := by
  obtain ⟨hop, -, himm⟩ := (and_wordOf_eq_wordOf_iff c (.allOnes 4) op 0#4 0#4 (.allOnes 16) imm).1 h
  exact (eq_wordOf_iff c _ _ _).2 ⟨BitVec.and_allOnes.symm.trans hop, rfl, BitVec.and_allOnes.symm.trans himm⟩

theorem eq_wordOf_of_and_op_rn {c : CmdWord} {op : BitVec 4} {rn : RegNum} (h : c &&& 0xFF0000#24 = wordOf op rn 0#16) :
    c = wordOf op rn (immField c) := by
  obtain ⟨hop, hrn, -⟩ := (and_wordOf_eq_wordOf_iff c (.allOnes 4) op (.allOnes 4) rn 0#16 0#16).1 h
  exact (eq_wordOf_iff c _ _ _).2 ⟨BitVec.and_allOnes.symm.trans hop, BitVec.and_allOnes.symm.trans hrn, rfl⟩

theorem and_highMask (w : Word) : w &&& 0xFF00#16 = highByte w ++ 0#8 := by
  calc w &&& 0xFF00#16
      = (highByte w ++ lowByte w) &&& (BitVec.allOnes 8 ++ 0#8) := by rw [highByte_append_lowByte]; rfl
    _ = highByte w ++ 0#8 := by rw [BitVec.and_append, BitVec.and_allOnes, BitVec.and_zero]

theorem eq_wordOf_of_and_op_rn_high {c : CmdWord} {op : BitVec 4} {rn : RegNum} {hi : Byte}
    (h : c &&& 0xFFFF00#24 = wordOf op rn (hi ++ 0#8)) : c = wordOf op rn (hi ++ lowByte (immField c)) := by
  obtain ⟨hop, hrn, himm⟩ := (and_wordOf_eq_wordOf_iff c (.allOnes 4) op (.allOnes 4) rn 0xFF00#16 (hi ++ 0#8)).1 h
  have hhi : highByte (immField c) = hi := by simpa [and_highMask] using congrArg highByte himm
  refine (eq_wordOf_iff c _ _ _).2 ⟨BitVec.and_allOnes.symm.trans hop, BitVec.and_allOnes.symm.trans hrn, ?_⟩
  rw [← hhi, highByte_append_lowByte]

/-! ### The rows of the opcode map (R59) -/

/-- Match and mask of each row. -/
def opcodeRows : List (CmdWord × CmdWord) :=
  [(0x000000#24, 0xFFFFFF#24), (0x100000#24, 0xFFFFFF#24), (0x200000#24, 0xF00000#24),
    (0x300000#24, 0xF0FFFF#24), (0x400000#24, 0xFF0000#24), (0x500000#24, 0xFF0000#24),
    (0x600000#24, 0xFFFF00#24), (0x700000#24, 0xFFFFFF#24), (0x800000#24, 0xFFFFFF#24)]

theorem row_mem_opcodeRows (i : Instr) : (i.row.pattern, i.row.mask) ∈ opcodeRows := by
  cases i <;> simp [Instr.row, opcodeRows]

theorem row_selects_encode (i : Instr) : i.row.selects (encode i) = true := by
  cases i with
  | nop => exact Laws.EncodeRow.nop
  | init => exact Laws.EncodeRow.init
  | wr n v => exact Laws.EncodeRow.wr n v
  | rd n => exact Laws.EncodeRow.rd n
  | addw w => exact Laws.EncodeRow.addw w
  | pkip o1 o2 => exact Laws.EncodeRow.pkip o1 o2
  | pushb b => exact Laws.EncodeRow.pushb b
  | hdr => exact Laws.EncodeRow.hdr
  | fin => exact Laws.EncodeRow.fin

/-- A word that decodes to a command matches the command's row. -/
theorem and_mask_of_decode {c : CmdWord} {i : Instr} (h : decode c = .command i) : c &&& i.row.mask = i.row.pattern := by
  rw [← encode_of_decode h]
  exact beq_iff_eq.1 (row_selects_encode i)

/-- A row with no open field is matched by its command's one word alone. -/
theorem decode_iff_and_all (c : CmdWord) (i : Instr) : decode c = .command i ↔ c &&& 0xFFFFFF#24 = encode i := by
  rw [decode_eq_command_iff, show c &&& 0xFFFFFF#24 = c from BitVec.and_allOnes]

theorem exists_decode_wr_iff (c : CmdWord) :
    (∃ n v, decode c = .command (.wr n v)) ↔ c &&& 0xF00000#24 = 0x200000#24 :=
  ⟨fun ⟨_, _, h⟩ => and_mask_of_decode h,
   fun h => ⟨_, _, (decode_eq_command_iff c (.wr _ _)).2 (eq_wordOf_of_and_op (op := 0x2#4) h)⟩⟩

theorem exists_decode_rd_iff (c : CmdWord) :
    (∃ n, decode c = .command (.rd n)) ↔ c &&& 0xF0FFFF#24 = 0x300000#24 :=
  ⟨fun ⟨_, h⟩ => and_mask_of_decode h,
   fun h => ⟨_, (decode_eq_command_iff c (.rd _)).2 (eq_wordOf_of_and_op_imm (op := 0x3#4) (imm := 0#16) h)⟩⟩

theorem exists_decode_addw_iff (c : CmdWord) :
    (∃ w, decode c = .command (.addw w)) ↔ c &&& 0xFF0000#24 = 0x400000#24 :=
  ⟨fun ⟨_, h⟩ => and_mask_of_decode h,
   fun h => ⟨_, (decode_eq_command_iff c (.addw _)).2 (eq_wordOf_of_and_op_rn (op := 0x4#4) (rn := 0#4) h)⟩⟩

theorem exists_decode_pkip_iff (c : CmdWord) :
    (∃ o1 o2, decode c = .command (.pkip o1 o2)) ↔ c &&& 0xFF0000#24 = 0x500000#24 := by
  refine ⟨fun ⟨_, _, h⟩ => and_mask_of_decode h, fun h => ⟨highByte (immField c), lowByte (immField c), ?_⟩⟩
  rw [decode_eq_command_iff, encode, highByte_append_lowByte]
  exact eq_wordOf_of_and_op_rn (op := 0x5#4) (rn := 0#4) h

theorem exists_decode_pushb_iff (c : CmdWord) :
    (∃ b, decode c = .command (.pushb b)) ↔ c &&& 0xFFFF00#24 = 0x600000#24 :=
  ⟨fun ⟨_, h⟩ => and_mask_of_decode h,
   fun h => ⟨_, (decode_eq_command_iff c (.pushb _)).2
    (eq_wordOf_of_and_op_rn_high (op := 0x6#4) (rn := 0#4) (hi := 0#8) h)⟩⟩

/-- A word that matches no row is illegal: a command would match its own. -/
theorem exists_illegal_of_no_row {c : CmdWord} (h : ∀ p ∈ opcodeRows, c &&& p.2 ≠ p.1) : ∃ why, decode c = .illegal why :=
  exists_illegal_of_no_command fun i hd => h _ (row_mem_opcodeRows i) (and_mask_of_decode hd)

/-- Two rows that differ in a bit that both masks keep have no word in common. -/
theorem rows_disjoint_of_and_ne {p q : CmdWord × CmdWord} (h : p.1 &&& q.2 ≠ q.1 &&& p.2) (c : CmdWord) :
    ¬(c &&& p.2 = p.1 ∧ c &&& q.2 = q.1) := by
  rintro ⟨hp, hq⟩
  apply h
  rw [← hp, ← hq, BitVec.and_assoc, BitVec.and_assoc, BitVec.and_comm p.2]

theorem opcodeRows_pairwise_and_ne : opcodeRows.Pairwise fun p q => p.1 &&& q.2 ≠ q.1 &&& p.2 := by
  decide

/-! ### Reserved opcodes and reserved fields (R60, R61) -/

theorem opField_append (op : BitVec 4) (rest : BitVec 20) : opField (op ++ rest) = op :=
  BitVec.extractLsb'_append_eq_left

/-- The opcode of a command's word is one of the nine defined ones. -/
theorem opField_encode_lt (i : Instr) : (opField (encode i)).toNat < 9 := by
  cases i <;> simp [encode]

theorem exists_illegal_of_reservedOpcode {c : CmdWord} (h : 9 ≤ (opField c).toNat) : ∃ why, decode c = .illegal why := by
  refine exists_illegal_of_no_command fun i hd => ?_
  rw [← encode_of_decode hd] at h
  exact absurd (opField_encode_lt i) (Nat.not_lt.2 h)

/-- A word whose opcode is followed by a failing must-be-zero check. -/
theorem exists_illegal_of_whenZero_false {c : CmdWord} {z : Bool} {i : Instr} (h : decode c = whenZero z i) (hz : z = false) :
    ∃ why, decode c = .illegal why :=
  ⟨_, h.trans ((whenZero_eq_illegal_iff z i _).2 ⟨hz, rfl⟩)⟩

theorem beq_and_beq_eq_false {m n : Nat} {x x' : BitVec m} {y y' : BitVec n} (h : x ≠ x' ∨ y ≠ y') :
    (x == x' && y == y') = false := by
  rwa [Bool.and_eq_false_iff, beq_eq_false_iff_ne, beq_eq_false_iff_ne]

/-! ### The obligations -/

/-- Settles O1, by `decode_encode`. -/
theorem decodeOfEncodeGivesTheCommandBack : Obligations.DecodeOfEncodeGivesTheCommandBack :=
  decode_encode

/-- Settles O2, by `encode_of_decode`. -/
theorem everyCommandHasOneWord : Obligations.EveryCommandHasOneWord :=
  fun _ _ => encode_of_decode

/-- Settles O3, row by row; any two rows differ in a bit that both masks keep. -/
theorem opcodeMapSelectsCommands : Obligations.OpcodeMapSelectsCommands :=
  ⟨fun c =>
    ⟨decode_iff_and_all c .nop, decode_iff_and_all c .init, exists_decode_wr_iff c, exists_decode_rd_iff c,
     exists_decode_addw_iff c, exists_decode_pkip_iff c, exists_decode_pushb_iff c, decode_iff_and_all c .hdr,
     decode_iff_and_all c .fin, exists_illegal_of_no_row⟩,
   opcodeRows_pairwise_and_ne.imp rows_disjoint_of_and_ne⟩

/-- Settles O4: no command's word has such an opcode. -/
theorem reservedOpcodesAreIllegal : Obligations.ReservedOpcodesAreIllegal :=
  fun op rest h => exists_illegal_of_reservedOpcode (by rwa [opField_append])

/-- Settles O5: the opcode selects the must-be-zero check of its format, and the check fails. -/
theorem reservedFieldsMustBeZero : Obligations.ReservedFieldsMustBeZero := by
  intro c
  obtain ⟨op, rn, imm, rfl⟩ := exists_wordOf c
  have hop : (wordOf op rn imm).extractLsb' 20 4 = op := opField_wordOf op rn imm
  have hrn : (wordOf op rn imm).extractLsb' 16 4 = rn := rnField_wordOf op rn imm
  have himm : (wordOf op rn imm).extractLsb' 0 16 = imm := immField_wordOf op rn imm
  simp only [hop, hrn, himm]
  refine ⟨?_, ?_, ?_, ?_⟩
  · rintro (rfl | rfl | rfl | rfl) h
    all_goals exact exists_illegal_of_whenZero_false (decode_wordOf _ rn imm) (beq_and_beq_eq_false h)
  · rintro rfl h
    exact exists_illegal_of_whenZero_false (decode_wordOf 0x3#4 rn imm) (beq_eq_false_iff_ne.2 h)
  · rintro (rfl | rfl) h
    all_goals exact exists_illegal_of_whenZero_false (decode_wordOf _ rn imm) (beq_eq_false_iff_ne.2 h)
  · rintro rfl h
    exact exists_illegal_of_whenZero_false (decode_wordOf 0x6#4 rn imm) (beq_and_beq_eq_false h)

/-- Settles O7, by running the decoder on the seven words. -/
theorem sampleWordsDecode : Obligations.SampleWordsDecode := by
  unfold Obligations.SampleWordsDecode
  decide

end Sys2Proof
end

section
/-! PROOFS. Words that are refused (spec/30_encoding.md R58, R62, R63): a command that names a register it may not reach, or a
reserved bit of `CTRL`, raises `F_ILL`; so does an `Illegal` word. -/

namespace Sys2Proof.Machine

/-! ### The ill-formed commands -/

theorem not_wellFormed_rd_iff (n : RegNum) : ¬(Instr.rd n).WellFormed ↔ 13 ≤ n.toNat := by
  simp only [Instr.WellFormed, Instr.wellFormed, decide_eq_true_eq]
  omega

theorem not_wellFormed_wr_iff (n : RegNum) (v : Word) :
    ¬(Instr.wr n v).WellFormed ↔ 8 ≤ n.toNat ∨ n = 7#4 ∧ v.extractLsb' 3 13 ≠ 0#13 := by
  have hn : n = 7#4 ↔ n.toNat = 7 := BitVec.toNat_inj.symm
  by_cases hv : v.extractLsb' 3 13 = 0#13
  all_goals
    simp only [Instr.WellFormed, Instr.wellFormed, Bool.or_eq_true, Bool.and_eq_true, decide_eq_true_eq, beq_iff_eq, hn, hv,
      ne_eq, not_true, not_false_eq_true, and_true, and_false, or_false]
    omega

/-! ### What they do -/

/-- A write that fails raises `F_ILL` (R117). -/
theorem exec_wr_of_none {s : State} {n : RegNum} {v : Word} (hf : s.block.fault = false) (h : s.block.writeNumber n v = none) :
    exec (.wr n v) s = .next (s.setBlock (s.block.raise .ill)) := by
  simp only [exec, execWr, h]
  exact State.attempt_error hf .ill

/-- A write of `CTRL` takes no reserved bit (R63). -/
theorem Block.writeNumber_ctrl_reserved (b : Block) {v : Word} (h : v.extractLsb' 3 13 ≠ 0#13) :
    b.writeNumber 7#4 v = none := by
  simp [Block.writeNumber, regOfNumber, Block.regWrite, Ctrl.ofWord, h]

/-- A read of a number that names no register raises `F_ILL` (R118). -/
theorem exec_rd_reserved {s : State} {n : RegNum} (hf : s.block.fault = false) (hn : 13 ≤ n.toNat) :
    exec (.rd n) s = .next (s.setBlock (s.block.raise .ill)) := by
  simp only [exec, execRd, Block.readNumber, (regOfNumber_eq_none_iff n).2 hn]
  exact State.attempt_error hf .ill

theorem exec_of_not_wellFormed {i : Instr} {s : State} (hf : s.block.fault = false) (hi : ¬i.WellFormed) :
    exec i s = .next (s.setBlock (s.block.raise .ill)) := by
  cases i with
  | wr n v =>
    rcases (not_wellFormed_wr_iff n v).1 hi with hn | ⟨rfl, hv⟩
    · exact exec_wr_readOnly v hf hn
    · exact exec_wr_of_none hf (s.block.writeNumber_ctrl_reserved hv)
  | rd n => exact exec_rd_reserved hf ((not_wellFormed_rd_iff n).1 hi)
  | _ => exact absurd rfl hi

/-! ### The obligations -/

/-- Settles O6: only `WR` and `RD` have operands that can be ill-formed, and then the register access fails. -/
theorem refusedWordsRaiseIllegal : Obligations.RefusedWordsRaiseIllegal := by
  intro i s hf
  refine ⟨?_, fun hi => ⟨decode_encode i, exec_of_not_wellFormed hf hi⟩⟩
  cases i with
  | wr n v => rw [not_wellFormed_wr_iff]; simp
  | rd n => rw [not_wellFormed_rd_iff]; simp
  | _ => simp [Instr.wellFormed]

/-- Settles O9: an `Illegal` word goes through the fault gate as a command that raises `F_ILL`. -/
theorem illegalWordSetsOnlyFIll : Obligations.IllegalWordSetsOnlyFIll := by
  intro s c rest why hb hd
  rw [step_illegal hb hd]
  exact ⟨fun hf => State.attempt_error (s := s.setInbox rest) hf .ill,
    fun hf => State.attempt_of_fault (s := s.setInbox rest) hf _⟩

end Sys2Proof.Machine
end

section
/-! PROOFS. The assembler (spec/30_encoding.md R65): operands that fit make the line's one command, whose word is computed field by
field, and any other operand makes no command at all. -/

namespace Sys2Proof

/-! ### The words of the commands with operands, as numbers -/

theorem encode_wr_toNat (n : RegNum) (v : Word) : (encode (.wr n v)).toNat = 0x200000 + n.toNat * 65536 + v.toNat :=
  wordOf_toNat 0x2#4 n v

theorem encode_rd_toNat (n : RegNum) : (encode (.rd n)).toNat = 0x300000 + n.toNat * 65536 :=
  wordOf_toNat 0x3#4 n 0#16

theorem encode_addw_toNat (w : Word) : (encode (.addw w)).toNat = 0x400000 + w.toNat :=
  wordOf_toNat 0x4#4 0#4 w

theorem encode_pkip_toNat (o1 o2 : Byte) : (encode (.pkip o1 o2)).toNat = 0x500000 + o1.toNat * 256 + o2.toNat := by
  rw [encode, wordOf_toNat, append_toNat, ← Nat.add_assoc]
  rfl

theorem encode_pushb_toNat (b : Byte) : (encode (.pushb b)).toNat = 0x600000 + b.toNat := by
  simp [encode, wordOf_toNat, append_toNat]

end Sys2Proof

namespace Sys2Proof.Machine

/-! ### Operands -/

/-- An operand that fits is the number itself. -/
theorem fitting_of_lt {w k : Nat} (h : k < 2 ^ w) : ∃ x : BitVec w, fitting w k = some x ∧ x.toNat = k :=
  ⟨_, if_pos h, by rw [BitVec.toNat_ofNat, Nat.mod_eq_of_lt h]⟩

theorem fitting_of_le {w k : Nat} (h : 2 ^ w ≤ k) : fitting w k = none :=
  if_neg (Nat.not_lt.2 h)

/-- The names of the registers, with the registers and their numbers (R11). -/
def registerNames : List (String × Reg × Nat) :=
  [("SPORT", .sport, 0), ("DPORT", .dport, 1), ("LEN", .len, 2), ("SIP0", .sip0, 3), ("SIP1", .sip1, 4), ("DIP0", .dip0, 5),
    ("DIP1", .dip1, 6), ("CTRL", .ctrl, 7), ("STATUS", .status, 8), ("ACCL", .accl, 9), ("ACCH", .acch, 10),
    ("RES", .res, 11), ("PKB", .pkb, 12)]

theorem exists_mem_registerNames (r : Reg) : ∃ p ∈ registerNames, p.2.1 = r := by
  cases r <;> decide

theorem register_of_name : ∀ p ∈ registerNames, register? p.1.toList = some (.named p.2.1) := by
  decide

theorem number_of_mem_registerNames : ∀ p ∈ registerNames, p.2.1.number.toNat = p.2.2 := by
  decide

/-! ### Lines with operands -/

section lines
variable {r : RegOperand} {n : RegNum} {k j : Nat}

theorem assemble_wr (hr : r.number? = some n) (hj : j < 65536) :
    ∃ i, assemble (.wr r j) = some [i] ∧ (encode i).toNat = 0x200000 + n.toNat * 65536 + j := by
  obtain ⟨v, hv, rfl⟩ := fitting_of_lt (w := 16) hj
  exact ⟨.wr n v, by simp [assemble, hr, hv], encode_wr_toNat n v⟩

theorem assemble_rd (hr : r.number? = some n) :
    ∃ i, assemble (.rd r) = some [i] ∧ (encode i).toNat = 0x300000 + n.toNat * 65536 :=
  ⟨.rd n, by simp [assemble, hr], encode_rd_toNat n⟩

theorem assemble_addw (hj : j < 65536) : ∃ i, assemble (.addw j) = some [i] ∧ (encode i).toNat = 0x400000 + j := by
  obtain ⟨w, hw, rfl⟩ := fitting_of_lt (w := 16) hj
  exact ⟨.addw w, by simp [assemble, hw], encode_addw_toNat w⟩

theorem assemble_pkip (hk : k < 256) (hj : j < 256) :
    ∃ i, assemble (.pkip k j) = some [i] ∧ (encode i).toNat = 0x500000 + k * 256 + j := by
  obtain ⟨o1, h1, rfl⟩ := fitting_of_lt (w := 8) hk
  obtain ⟨o2, h2, rfl⟩ := fitting_of_lt (w := 8) hj
  exact ⟨.pkip o1 o2, by simp [assemble, h1, h2], encode_pkip_toNat o1 o2⟩

theorem assemble_pushb (hj : j < 256) : ∃ i, assemble (.pushb j) = some [i] ∧ (encode i).toNat = 0x600000 + j := by
  obtain ⟨b, hb, rfl⟩ := fitting_of_lt (w := 8) hj
  exact ⟨.pushb b, by simp [assemble, hb], encode_pushb_toNat b⟩

/-! A line is rejected for any one operand. -/

theorem assemble_wr_eq_none (h : r.number? = none ∨ 65536 ≤ j) : assemble (.wr r j) = none := by
  rcases h with hr | hj
  · simp [assemble, hr]
  · simp [assemble, fitting_of_le (w := 16) hj]

theorem assemble_rd_eq_none (h : r.number? = none) : assemble (.rd r) = none := by
  simp [assemble, h]

theorem assemble_addw_eq_none (hj : 65536 ≤ j) : assemble (.addw j) = none := by
  simp [assemble, fitting_of_le (w := 16) hj]

theorem assemble_pkip_eq_none (h : 256 ≤ k ∨ 256 ≤ j) : assemble (.pkip k j) = none := by
  rcases h with hk | hj
  · simp [assemble, fitting_of_le (w := 8) hk]
  · simp [assemble, fitting_of_le (w := 8) hj]

theorem assemble_pushb_eq_none (hj : 256 ≤ j) : assemble (.pushb j) = none := by
  simp [assemble, fitting_of_le (w := 8) hj]

end lines

/-! ### The obligation -/

/-- Settles O52: each operand fits its field and is the number itself, or makes the line nothing. -/
theorem assemblerNeverTruncates : Obligations.AssemblerNeverTruncates := by
  refine ⟨exists_mem_registerNames, register_of_name, by decide, ⟨.nop, rfl, rfl⟩, ⟨.init, rfl, rfl⟩, ⟨.hdr, rfl, rfl⟩,
    ⟨.fin, rfl, rfl⟩, fun p hp j => ?_, fun k j => ?_⟩
  · rw [← number_of_mem_registerNames p hp]
    exact ⟨assemble_wr rfl, fun hj => assemble_wr_eq_none (.inr hj), assemble_rd rfl⟩
  · have hnone : 16 ≤ k → (RegOperand.numbered k).number? = none := fitting_of_le (w := 4)
    refine ⟨fun hk hj => ?_, fun h => assemble_wr_eq_none (h.imp_left hnone), fun hk => ?_,
      fun hk => assemble_rd_eq_none (hnone hk), assemble_addw, assemble_addw_eq_none, assemble_pkip,
      assemble_pkip_eq_none, assemble_pushb, assemble_pushb_eq_none⟩
    · obtain ⟨n, hn, rfl⟩ := fitting_of_lt (w := 4) hk
      exact assemble_wr hn hj
    · obtain ⟨n, hn, rfl⟩ := fitting_of_lt (w := 4) hk
      exact assemble_rd hn

end Sys2Proof.Machine
end

section
/-! PROOFS. The packers (spec/40_packer.md): the two packing functions as numbers (R75, R78), the commands that use them
(R77, R80), and the fate of a byte that waits for its second (R82). -/

namespace Sys2Proof.Machine

/-! ### The payload packer is one to one and onto (R75) -/

theorem packPl_toNat (x y : Byte) : (packPl x y).toNat = x.toNat * 256 + y.toNat :=
  append_toNat x y

/-- A word is packed from one pair alone: its own two bytes. -/
theorem packPl_eq_iff (x y : Byte) (w : Word) : packPl x y = w ↔ x = highByte w ∧ y = lowByte w := by
  constructor
  · rintro rfl
    exact ⟨(highByte_append x y).symm, (lowByte_append x y).symm⟩
  · rintro ⟨rfl, rfl⟩
    exact highByte_append_lowByte w

theorem packPl_inj {x y x' y' : Byte} (h : packPl x y = packPl x' y') : x = x' ∧ y = y' := by
  obtain ⟨hx, hy⟩ := (packPl_eq_iff x y _).1 h
  exact ⟨hx.trans (highByte_append x' y'), hy.trans (lowByte_append x' y')⟩

/-! ### The IP packer (R78) -/

/-- A second octet that is padded, or needs no padding, is packed as a payload byte is. -/
theorem packIp_eq_packPl {o1 o2 : Byte} {pad : Bool} (h : pad = true ∨ 16 ≤ o2.toNat) : packIp o1 o2 pad = packPl o1 o2 := by
  apply BitVec.eq_of_toNat_eq
  rw [packIp, if_pos h, packPl_toNat]
  simp only [BitVec.toNat_add, BitVec.toNat_shiftLeft, BitVec.toNat_setWidth, Nat.shiftLeft_eq]
  omega

/-- Unpadded, a second octet below 16 takes one hex digit, the legacy defect (log 12). -/
theorem packIp_toNat_of_lt (o1 : Byte) {o2 : Byte} (h : o2.toNat < 16) :
    (packIp o1 o2 false).toNat = o1.toNat * 16 + o2.toNat := by
  have hshort : ¬(false = true ∨ 16 ≤ o2.toNat) := by simpa using h
  rw [packIp, if_neg hshort]
  simp only [BitVec.toNat_add, BitVec.toNat_shiftLeft, BitVec.toNat_setWidth, Nat.shiftLeft_eq]
  omega

theorem packIp_toNat_of_le (o1 : Byte) {o2 : Byte} {pad : Bool} (h : pad = true ∨ 16 ≤ o2.toNat) :
    (packIp o1 o2 pad).toNat = o1.toNat * 256 + o2.toNat := by
  rw [packIp_eq_packPl h, packPl_toNat]

/-- A short second octet is packed alike in both modes only when there is no first octet to shift. -/
theorem packIp_modes_agree_iff (o1 o2 : Byte) : packIp o1 o2 false = packIp o1 o2 true ↔ 16 ≤ o2.toNat ∨ o1 = 0#8 := by
  rcases Nat.lt_or_ge o2.toNat 16 with h | h
  · have hzero : o1 = 0#8 ↔ o1.toNat = 0 := BitVec.toNat_inj.symm
    rw [← BitVec.toNat_inj, packIp_toNat_of_lt o1 h, packIp_toNat_of_le o1 (.inl rfl), hzero]
    omega
  · exact ⟨fun _ => .inl h, fun _ => (packIp_eq_packPl (.inr h)).trans (packIp_eq_packPl (.inl rfl)).symm⟩

/-! ### Adding one word -/

section one_word
variable {s : State} {w : Word}

/-- With no fault pending, a word that fits is added (R91). -/
theorem State.attempt_accumulate_of_fits (hf : s.block.fault = false) (hfit : s.block.acc.toNat + w.toNat < accLimit s.cfg) :
    s.attempt (s.block.accumulate s.cfg [w]) =
      .next (s.setBlock (s.block.setAcc (BitVec.ofNat 32 (s.block.acc.toNat + w.toNat)))) := by
  have hadd := Block.accumulate_ok (cfg := s.cfg) (b := s.block) (ws := [w]) (by simpa using hfit)
  rw [hadd, List.map_singleton, List.sum_singleton]
  exact State.attempt_ok hf _

/-- With no fault pending, a word that does not fit raises `F_OVF` (R91). -/
theorem State.attempt_accumulate_of_overflow (hf : s.block.fault = false)
    (hover : accLimit s.cfg ≤ s.block.acc.toNat + w.toNat) :
    s.attempt (s.block.accumulate s.cfg [w]) = .next (s.setBlock (s.block.raise .ovf)) := by
  rw [Block.accumulate_error (by simpa using hover)]
  exact State.attempt_error hf .ovf

end one_word

/-- With a byte pending, a byte whose word does not fit raises `F_OVF` (R77). -/
theorem exec_pushb_of_overflow {s : State} (x : Byte) (hf : s.block.fault = false) (hv : s.block.pkv = true)
    (hover : accLimit s.cfg ≤ s.block.acc.toNat + (packPl s.block.pkb x).toNat) :
    exec (.pushb x) s = .next (s.setBlock (s.block.raise .ovf)) := by
  rw [exec, execPushb, Block.pushByte, if_pos hv, Block.accumulate_error (by simpa using hover)]
  exact State.attempt_error hf .ovf

/-- `FIN` refuses a pending byte (R106). -/
theorem exec_fin_of_pending {s : State} (hf : s.block.fault = false) (hv : s.block.pkv = true) :
    exec .fin s = .next (s.setBlock (s.block.raise .odd)) := by
  rw [exec, execFin, Block.finish_odd hv]
  exact State.attempt_error hf .odd

/-! ### The must-be-zero fields (R61) -/

theorem append_bytes_eq_wordOf (op : BitVec 4) (rn : RegNum) (hi lo : Byte) :
    (op ++ rn ++ hi ++ lo : CmdWord) = wordOf op rn (hi ++ lo) :=
  BitVec.append_assoc

theorem exists_illegal_pushb {rn : RegNum} {hi : Byte} (lo : Byte) (h : rn ≠ 0#4 ∨ hi ≠ 0#8) :
    ∃ why, decode (6#4 ++ rn ++ hi ++ lo) = .illegal why := by
  rw [append_bytes_eq_wordOf]
  refine exists_illegal_of_whenZero_false (decode_wordOf 0x6#4 rn (hi ++ lo)) (beq_and_beq_eq_false ?_)
  rwa [highByte_append]

theorem exists_illegal_pkip {rn : RegNum} (o1 o2 : Byte) (h : rn ≠ 0#4) :
    ∃ why, decode (5#4 ++ rn ++ o1 ++ o2) = .illegal why := by
  rw [append_bytes_eq_wordOf]
  exact exists_illegal_of_whenZero_false (decode_wordOf 0x5#4 rn (o1 ++ o2)) (beq_eq_false_iff_ne.2 h)

/-! ### A pending byte (R82) -/

/-- A command keeps a pending byte, or empties the packer as `INIT` or as a `PUSHB` that adds the pair. -/
theorem Effect.pending_byte {i : Instr} {s t : State} (h : Effect i s t) (hv : s.block.pkv = true) :
    (t.block.pkv = true ∧ t.block.pkb = s.block.pkb) ∨
    (t.block.pkv = false ∧ (i = .init ∨
      ∃ x, i = .pushb x ∧ t.block.acc.toNat = s.block.acc.toNat + (packPl s.block.pkb x).toNat)) := by
  cases h with
  | started hi => exact .inr ⟨rfl, .inl hi⟩
  | paired x a hi _ _ ha _ => exact .inr ⟨rfl, .inr ⟨x, hi, ha⟩⟩
  | wrote _ _ _ _ _ _ hw => exact .inl ⟨hw.pkv.trans hv, hw.pkb⟩
  | held _ _ _ hempty => exact absurd hv (by simp [hempty])
  | finished _ _ hempty => exact absurd hv (by simp [hempty])
  | _ => exact .inl ⟨hv, rfl⟩

/-- A step keeps a pending byte, or empties the packer in one of the three ways of R82. -/
theorem step_pending_byte {s t : State} (h : step s = .next t) (hv : s.block.pkv = true) :
    (t.block.pkv = true ∧ t.block.pkb = s.block.pkb) ∨
    (t.block.pkv = false ∧ ((∃ rest, s.inbox = .rst :: rest) ∨
      (∃ c rest, s.inbox = .cmd c :: rest ∧ decode c = .command .init) ∨
      (∃ c rest x, s.inbox = .cmd c :: rest ∧ decode c = .command (.pushb x) ∧
        t.block.acc.toNat = s.block.acc.toNat + (packPl s.block.pkb x).toNat))) := by
  rcases step_cases h with ⟨-, rfl⟩ | ⟨rest, hb, rfl⟩ | ⟨c, rest, i, hb, hd, he⟩ | ⟨c, rest, why, -, -, -, rfl⟩ |
    ⟨c, rest, why, -, -, -, rfl⟩
  case inr.inl => exact .inr ⟨rfl, .inl ⟨rest, hb⟩⟩
  case inr.inr.inl =>
    rcases (exec_effect he).pending_byte hv with hkept | ⟨hempty, rfl | ⟨x, rfl, ha⟩⟩
    · exact .inl hkept
    · exact .inr ⟨hempty, .inr (.inl ⟨c, rest, hb, hd⟩)⟩
    · exact .inr ⟨hempty, .inr (.inr ⟨c, rest, x, hb, hd, ha⟩)⟩
  all_goals exact .inl ⟨hv, rfl⟩

/-- A `FIN` with a byte pending sets `F_ODD` alone, or nothing at all behind a closed gate. -/
theorem step_fin_of_pending {s t : State} {c : CmdWord} {rest : List Event} (h : step s = .next t)
    (hb : s.inbox = .cmd c :: rest) (hd : decode c = .command .fin) (hv : s.block.pkv = true) :
    (s.block.fault = true ∧ t = s.setInbox rest) ∨
    (s.block.fault = false ∧ t = (s.setInbox rest).setBlock (s.block.raise .odd)) := by
  rw [step_command hb hd] at h
  cases hf : s.block.fault with
  | true =>
    rw [exec, execFin, State.attempt_of_fault (s := s.setInbox rest) hf] at h
    cases h
    exact .inl ⟨rfl, rfl⟩
  | false =>
    rw [exec_fin_of_pending (s := s.setInbox rest) hf hv] at h
    cases h
    exact .inr ⟨rfl, rfl⟩

/-! ### The obligations -/

/-- Settles O36: the one pair of a word is its two bytes. -/
theorem payloadPackerIsABijection : Obligations.PayloadPackerIsABijection :=
  ⟨packPl_toNat, fun w => ⟨(highByte w, lowByte w), highByte_append_lowByte w,
    fun q hq => Prod.ext_iff.2 ((packPl_eq_iff q.1 q.2 w).1 hq)⟩⟩

/-- Settles O37: where the second octet is padded, or needs no padding, `pack_ip` is `pack_pl`. -/
theorem ipPackerInBothModes : Obligations.IpPackerInBothModes := by
  refine ⟨fun o1 o2 => ⟨packIp_toNat_of_le o1 (.inl rfl), fun h => packIp_toNat_of_le o1 (.inr h), packIp_toNat_of_lt o1,
    packIp_modes_agree_iff o1 o2⟩, fun o1 o2 p1 p2 h => ?_, by decide, by decide⟩
  rw [packIp_eq_packPl (.inl rfl), packIp_eq_packPl (.inl rfl)] at h
  exact packPl_inj h

/-- Settles O38, by the rule of `PUSHB` for each state of the packer. -/
theorem pushbPairsPayloadBytes : Obligations.PushbPairsPayloadBytes := by
  intro b s
  simp only [← packPl_toNat]
  exact ⟨encode_pushb_toNat b, fun _ _ => exists_illegal_pushb b, fun hf => State.attempt_of_fault hf _,
    exec_pushb_of_empty b, exec_pushb_of_pending b, exec_pushb_of_overflow b⟩

/-- Settles O39: `PKIP` adds one word through the fault gate. -/
theorem pkipAddsThePackedOctets : Obligations.PkipAddsThePackedOctets :=
  fun o1 o2 _ => ⟨encode_pkip_toNat o1 o2, fun _ => exists_illegal_pkip o1 o2, fun hf => State.attempt_of_fault hf _,
    State.attempt_accumulate_of_fits, State.attempt_accumulate_of_overflow⟩

/-- Settles O40, by the two fates of a pending byte and by what `FIN` does with one. -/
theorem fateOfAnUnpairedByte : Obligations.FateOfAnUnpairedByte := by
  intro s t hv h
  refine ⟨fun hempty => ?_, fun hfull => ?_, fun c rest hb hd => ?_⟩
  · simp only [← packPl_toNat]
    rcases step_pending_byte h hv with ⟨hfull, -⟩ | ⟨-, hways⟩
    · exact absurd hempty (by simp [hfull])
    · exact hways
  · rcases step_pending_byte h hv with ⟨-, hkept⟩ | ⟨hempty, -⟩
    · exact hkept
    · exact absurd hfull (by simp [hempty])
  · rcases step_fin_of_pending h hb hd hv with ⟨hf, rfl⟩ | ⟨-, rfl⟩
    · exact ⟨hv, rfl, rfl, fun hf' => absurd hf (by simp [hf'])⟩
    · exact ⟨hv, rfl, rfl, fun _ => rfl⟩

end Sys2Proof.Machine
end

section
/-! PROOFS. The accumulator (spec/41_accumulate.md): it never wraps (R91), `ADDW` and `HDR` add exactly or add nothing (R92, R93),
and `HDR` is compared with the nine primitives (R95). -/

namespace Sys2Proof.Machine

/-! ### No command but `INIT` makes `ACC` smaller (R91) -/

theorem Effect.acc_le {i : Instr} {s t : State} (h : Effect i s t) (hi : i ≠ .init) :
    s.block.acc.toNat ≤ t.block.acc.toNat := by
  cases h with
  | started hinit => exact absurd hinit hi
  | wrote _ _ _ _ _ _ hw => exact le_of_eq (congrArg BitVec.toNat hw.acc.symm)
  | added _ _ _ _ ha _ => exact le_of_le_of_eq (Nat.le_add_right _ _) ha.symm
  | paired _ _ _ _ _ ha _ => exact le_of_le_of_eq (Nat.le_add_right _ _) ha.symm
  | _ => exact le_refl _

/-! ### A sum that fits is held exactly (R90, R91) -/

theorem toNat_ofNat_of_lt_accLimit {cfg : Config} {n : Nat} (h : n < accLimit cfg) : (BitVec.ofNat 32 n).toNat = n :=
  (BitVec.toNat_ofNat n 32).trans (Nat.mod_eq_of_lt (lt_of_lt_of_le h (accLimit_le cfg)))

/-! ### `ADDW` of a byte pair and the two `PUSHB` (R92) -/

theorem exists_illegal_addw {rn : RegNum} (w : Word) (h : rn ≠ 0#4) : ∃ why, decode (4#4 ++ rn ++ w) = .illegal why :=
  exists_illegal_of_whenZero_false (decode_wordOf 0x4#4 rn w) (beq_eq_false_iff_ne.2 h)

/-- Whatever stands in `PKB`, two bytes pushed with no byte pending add the word they make. -/
theorem State.perform_pushb_pair {s : State} (x y : Byte) (hf : s.block.fault = false) (hv : s.block.pkv = false)
    (hfit : s.block.acc.toNat + (packPl x y).toNat < accLimit s.cfg) :
    s.perform [.pushb x, .pushb y] = .next (s.setBlock (((s.block.setPacker x true).setAcc
      (BitVec.ofNat 32 (s.block.acc.toNat + (packPl x y).toNat))).setPacker 0 false)) := by
  have hpair := exec_pushb_of_pending (s := s.setBlock (s.block.setPacker x true)) y hf rfl hfit
  rw [State.perform_cons _ (exec_pushb_of_empty x hf hv), State.perform_cons _ hpair, State.perform_nil]
  rfl

theorem State.perform_pushb_pair_of_fault {s : State} (x y : Byte) (hf : s.block.fault = true) :
    s.perform [.pushb x, .pushb y] = .next s := by
  have hgate : ∀ z, exec (.pushb z) s = .next s := fun z => State.attempt_of_fault hf (s.block.pushByte s.cfg z)
  rw [State.perform_cons _ (hgate x), State.perform_cons _ (hgate y), State.perform_nil]

/-- With no byte pending, `ADDW` of two bytes has the effect on `ACC` of pushing them, where the word fits. -/
theorem addw_acc_eq_pushb_pair_acc {s : State} (x y : Byte) (hv : s.block.pkv = false)
    (hfit : s.block.acc.toNat + (packPl x y).toNat < accLimit s.cfg) :
    ∃ t u : State, exec (.addw (packPl x y)) s = .next t ∧ s.perform [.pushb x, .pushb y] = .next u ∧
      u.block.acc = t.block.acc := by
  cases hf : s.block.fault with
  | true => exact ⟨s, s, State.attempt_of_fault hf _, State.perform_pushb_pair_of_fault x y hf, rfl⟩
  | false => exact ⟨_, _, State.attempt_accumulate_of_fits hf hfit, State.perform_pushb_pair x y hf hv hfit, rfl⟩

/-! ### The nine words of `HDR` (R93) -/

theorem exists_illegal_hdr {rn : RegNum} {imm : Word} (h : rn ≠ 0#4 ∨ imm ≠ 0#16) :
    ∃ why, decode (7#4 ++ rn ++ imm) = .illegal why :=
  exists_illegal_of_whenZero_false (decode_wordOf 0x7#4 rn imm) (beq_and_beq_eq_false h)

/-- `ACC` and the nine header words, added in the document's order. -/
def hdrTotal (b : Block) : Nat :=
  b.acc.toNat + b.sport.toNat + b.dport.toNat + b.len.toNat + b.len.toNat + proto.toNat +
    (packPair b.sip0 b.ctrl.ippad).toNat + (packPair b.dip0 b.ctrl.ippad).toNat +
    (packPair b.sip1 b.ctrl.ippad).toNat + (packPair b.dip1 b.ctrl.ippad).toNat

theorem acc_add_hdrAddends_sum (b : Block) : b.acc.toNat + ((hdrAddends b).map BitVec.toNat).sum = hdrTotal b := by
  simp only [hdrAddends, hdrTotal, List.map_cons, List.map_nil, List.sum_cons, List.sum_nil, Nat.add_zero, Nat.add_assoc]

theorem exec_hdr_of_fits {s : State} (hf : s.block.fault = false) (hfit : hdrTotal s.block < accLimit s.cfg) :
    exec .hdr s = .next (s.setBlock (s.block.setAcc (BitVec.ofNat 32 (hdrTotal s.block)))) := by
  rw [← acc_add_hdrAddends_sum] at hfit ⊢
  rw [exec, execHdr, Block.accumulate_ok hfit]
  exact State.attempt_ok hf _

theorem exec_hdr_of_overflow {s : State} (hf : s.block.fault = false) (hover : accLimit s.cfg ≤ hdrTotal s.block) :
    exec .hdr s = .next (s.setBlock (s.block.raise .ovf)) := by
  rw [← acc_add_hdrAddends_sum] at hover
  rw [exec, execHdr, Block.accumulate_error hover]
  exact State.attempt_error hf .ovf

/-! ### Adding words one command at a time (R90, R91) -/

/-- The command `i` adds the one word `w`, under `CTRL.IPPAD = pad`. -/
def AddsWord (pad : Bool) (i : Instr) (w : Word) : Prop :=
  ∀ s : State, s.block.ctrl.ippad = pad → exec i s = s.attempt (s.block.accumulate s.cfg [w])

theorem addsWord_addw (pad : Bool) (w : Word) : AddsWord pad (.addw w) w := fun _ _ => rfl

theorem addsWord_pkip (pad : Bool) (o1 o2 : Byte) : AddsWord pad (.pkip o1 o2) (packIp o1 o2 pad) := by
  rintro s rfl
  rfl

section adding
variable {pad : Bool} {s : State} {is : List Instr} {ws : List Word}

/-- With a fault pending, commands that add words have no effect (R128). -/
theorem State.perform_adding_of_fault (his : List.Forall₂ (AddsWord pad) is ws) (hp : s.block.ctrl.ippad = pad)
    (hf : s.block.fault = true) : s.perform is = .next s := by
  induction his with
  | nil => exact State.perform_nil s
  | cons hi _ ih => rw [State.perform_cons _ ((hi s hp).trans (State.attempt_of_fault hf _)), ih]

/-- Where its word fits, the first command adds it, and the others are performed from there. -/
theorem AddsWord.perform_cons_of_fits {i : Instr} {w : Word} (hi : AddsWord pad i w) (hp : s.block.ctrl.ippad = pad)
    (hf : s.block.fault = false) (hfit : s.block.acc.toNat + w.toNat < accLimit s.cfg) (is : List Instr) :
    ∃ a : BitVec 32, a.toNat = s.block.acc.toNat + w.toNat ∧
      s.perform (i :: is) = (s.setBlock (s.block.setAcc a)).perform is :=
  ⟨_, toNat_ofNat_of_lt_accLimit hfit,
    State.perform_cons is ((hi s hp).trans (State.attempt_accumulate_of_fits hf hfit))⟩

/-- Where the whole sum fits, adding the words one by one leaves it in `ACC`. -/
theorem State.perform_adding_of_fits {a : BitVec 32} (his : List.Forall₂ (AddsWord pad) is ws)
    (hp : s.block.ctrl.ippad = pad) (hf : s.block.fault = false)
    (ha : a.toNat = s.block.acc.toNat + (ws.map BitVec.toNat).sum) (hfit : a.toNat < accLimit s.cfg) :
    s.perform is = .next (s.setBlock (s.block.setAcc a)) := by
  induction his generalizing s with
  | nil =>
    obtain rfl : a = s.block.acc := BitVec.eq_of_toNat_eq ha
    rfl
  | @cons i w is ws hi _ ih =>
    rw [List.map_cons, List.sum_cons] at ha
    obtain ⟨a₁, ha₁, hfirst⟩ := hi.perform_cons_of_fits hp hf (by omega) is
    have hrest : a.toNat = a₁.toNat + (ws.map BitVec.toNat).sum := by omega
    rw [hfirst]
    exact ih (s := s.setBlock (s.block.setAcc a₁)) hp hf hrest hfit

/-- Where the whole sum does not fit, adding the words one by one stops with `F_OVF` at the first partial sum that does not, and
leaves the one before it, the sum of the first `k` words, in `ACC`. -/
theorem State.perform_adding_of_overflow (his : List.Forall₂ (AddsWord pad) is ws) (hp : s.block.ctrl.ippad = pad)
    (hf : s.block.fault = false) (hacc : s.block.acc.toNat < accLimit s.cfg)
    (hover : accLimit s.cfg ≤ s.block.acc.toNat + (ws.map BitVec.toNat).sum) :
    ∃ (k : Nat) (a : BitVec 32), k < ws.length ∧ a.toNat = s.block.acc.toNat + ((ws.map BitVec.toNat).take k).sum ∧
      a.toNat < accLimit s.cfg ∧ accLimit s.cfg ≤ s.block.acc.toNat + ((ws.map BitVec.toNat).take (k + 1)).sum ∧
      s.perform is = .next (s.setBlock ((s.block.setAcc a).raise .ovf)) := by
  induction his generalizing s with
  | nil => exact absurd hover (Nat.not_le.2 hacc)
  | @cons i w is ws hi his ih =>
    rw [List.map_cons, List.sum_cons, ← Nat.add_assoc] at hover
    rcases Nat.lt_or_ge (s.block.acc.toNat + w.toNat) (accLimit s.cfg) with hfit | hstop
    · obtain ⟨a₁, ha₁, hfirst⟩ := hi.perform_cons_of_fits hp hf hfit is
      rw [← ha₁] at hfit hover
      obtain ⟨k, a, hk, ha, hlt, hnext, hrest⟩ := ih (s := s.setBlock (s.block.setAcc a₁)) hp hf hfit hover
      rw [State.setBlock_block, Block.setAcc_acc, ha₁, Nat.add_assoc] at ha hnext
      exact ⟨k + 1, a, Nat.succ_lt_succ hk, ha, hlt, hnext, hfirst.trans hrest⟩
    · have hfirst := (hi s hp).trans (State.attempt_accumulate_of_overflow hf hstop)
      refine ⟨0, s.block.acc, Nat.succ_pos _, rfl, hacc, hstop, (State.perform_cons is hfirst).trans ?_⟩
      exact State.perform_adding_of_fault his hp (Block.raise_fault s.block .ovf)

end adding

/-! ### `HDR` and the nine primitives (R95) -/

/-- The nine primitives, in the document's order (R94). -/
def hdrPrimitives (b : Block) : List Instr :=
  [.addw b.sport, .addw b.dport, .addw b.len, .addw b.len, .addw proto,
   .pkip (highByte b.sip0) (lowByte b.sip0), .pkip (highByte b.dip0) (lowByte b.dip0),
   .pkip (highByte b.sip1) (lowByte b.sip1), .pkip (highByte b.dip1) (lowByte b.dip1)]

/-- Each primitive adds the word of `HDR` that stands in its place. -/
theorem hdrPrimitives_addsWord (b : Block) :
    List.Forall₂ (AddsWord b.ctrl.ippad) (hdrPrimitives b) (hdrAddends b) := by
  simp only [hdrPrimitives, hdrAddends, packPair, List.forall₂_cons, List.forall₂_nil_left_iff, addsWord_addw, addsWord_pkip,
    and_self]

/-! ### The obligations -/

/-- Settles O23, by `Effect.acc_le` and the invariant. -/
theorem accumulatorNeverWraps : Obligations.AccumulatorNeverWraps :=
  fun _ _ _ hs hi h => ⟨(exec_effect h).acc_le hi, (exec_inv hs h).acc_fits⟩

/-- Settles O42: `ADDW` adds one word through the fault gate, and the two `PUSHB` add the same word. -/
theorem addwAddsOneWord : Obligations.AddwAddsOneWord := by
  refine fun w s => ⟨encode_addw_toNat w, fun _ => exists_illegal_addw w, fun hf => State.attempt_of_fault hf _,
    State.attempt_accumulate_of_fits, State.attempt_accumulate_of_overflow, ?_⟩
  rintro b1 b2 rfl hv hfit
  exact addw_acc_eq_pushb_pair_acc b1 b2 hv hfit

/-- Settles O43: `HDR` adds its nine words at once through the fault gate. -/
theorem hdrAddsThePseudoHeader : Obligations.HdrAddsThePseudoHeader :=
  fun _ => ⟨rfl, fun _ _ => exists_illegal_hdr, fun hf => State.attempt_of_fault hf _, exec_hdr_of_fits, exec_hdr_of_overflow⟩

/-- Settles O44: both add the same nine words, at once or one by one. Where their sum fits both leave it; where it does not, the
sequence stops at a partial sum. -/
theorem hdrIsTheNinePrimitives : Obligations.HdrIsTheNinePrimitives := by
  intro s t u hf hacc ht hu
  have hprims := hdrPrimitives_addsWord s.block
  have hovf : s.block.fOvf = false := ((Block.fault_eq_false_iff s.block).1 hf).1
  rcases Nat.lt_or_ge (hdrTotal s.block) (accLimit s.cfg) with hfit | hover
  · have hheld := toNat_ofNat_of_lt_accLimit hfit
    have hsum := hheld.trans (acc_add_hdrAddends_sum s.block).symm
    cases ht.symm.trans (exec_hdr_of_fits hf hfit)
    cases hu.symm.trans (State.perform_adding_of_fits hprims rfl hf hsum (hheld.trans_lt hfit))
    exact ⟨rfl, fun _ => rfl, fun hset => absurd hset (by simp [hovf])⟩
  · cases ht.symm.trans (exec_hdr_of_overflow hf hover)
    rw [← acc_add_hdrAddends_sum] at hover
    obtain ⟨k, a, hk, ha, hlt, hnext, hstopped⟩ := State.perform_adding_of_overflow hprims rfl hf hacc hover
    cases hu.symm.trans hstopped
    exact ⟨rfl, fun hclear => absurd hclear (by simp), fun _ => ⟨rfl, ⟨k, hk, ha, ha ▸ hlt, hnext⟩, rfl⟩⟩

end Sys2Proof.Machine
end

section
/-! PROOFS. Fold, complement and `FIN` (spec/42_fold_complement.md): one pass and the loop as numbers (R101, R102), the complement
(R103, R104), what `FIN` delivers in each row of its table (R106, R107), and `FIN` repeated (R108). -/

namespace Sys2Proof.Machine

/-! ### One fold pass (R101) -/

theorem fold1_le {s : Nat} (hs : s < 2 ^ 32) : fold1 s ≤ 0x1FFFE := by
  unfold fold1
  omega

theorem fold1_of_le {s : Nat} (h : s ≤ 0xFFFF) : fold1 s = s := by
  unfold fold1
  omega

/-- 0x1FFFF is the smallest sum whose pass carries. -/
theorem le_of_lt_fold1 {s : Nat} (h : 0xFFFF < fold1 s) : 0x1FFFF ≤ s := by
  unfold fold1 at h
  omega

/-- A pass over a value that carries takes its one carry from bit 16 and adds it at bit 0. -/
theorem fold1_of_carry {f : Nat} (h : 0xFFFF < f) (hle : f ≤ 0x1FFFE) : fold1 f = f - 0xFFFF := by
  unfold fold1
  omega

/-! ### The single pass and the loop (R102) -/

theorem foldWhile_of_le (fuel : Nat) {f : Nat} (h : f ≤ 0xFFFF) : foldWhile fuel f = f := by
  cases fuel with
  | zero => rfl
  | succ k => rw [foldWhile, if_neg (Nat.not_lt.2 h)]

theorem fold_legacy (s : Nat) : fold s false = fold1 s := rfl

theorem fold_loop_of_le {s : Nat} (h : fold1 s ≤ 0xFFFF) : fold s true = fold1 s :=
  foldWhile_of_le foldFuel h

/-- A first pass that carries gives at most 0x1FFFE, so the second pass ends the loop before its fuel is spent. -/
theorem fold_loop_of_lt {s : Nat} (hs : s < 2 ^ 32) (h : 0xFFFF < fold1 s) : fold s true = fold1 s - 0xFFFF := by
  have hle := fold1_le hs
  have hpass := fold1_of_carry h hle
  have hfits : fold1 (fold1 s) ≤ 0xFFFF := by omega
  calc fold s true
      = foldWhile 1 (fold1 (fold1 s)) := if_pos h
    _ = fold1 (fold1 s) := foldWhile_of_le 1 hfits
    _ = fold1 s - 0xFFFF := hpass

theorem fold_loop_le {s : Nat} (hs : s < 2 ^ 32) : fold s true ≤ 0xFFFF := by
  rcases Nat.lt_or_ge 0xFFFF (fold1 s) with h | h
  · have hle := fold1_le hs
    rw [fold_loop_of_lt hs h]
    omega
  · exact (fold_loop_of_le h).trans_le h

theorem fold_modes_differ_iff {s : Nat} (hs : s < 2 ^ 32) : fold s true ≠ fold s false ↔ 0xFFFF < fold1 s := by
  rw [fold_legacy]
  rcases Nat.lt_or_ge 0xFFFF (fold1 s) with h | h
  · rw [fold_loop_of_lt hs h]
    omega
  · rw [fold_loop_of_le h]
    omega

/-! ### The complement and its bus (R103, R104) -/

theorem cpl18_toNat (f : Nat) : (cpl18 f).toNat = 0xFFFF - f % 0x10000 := by
  simp only [cpl18, BitVec.toNat_not, BitVec.extractLsb'_toNat, BitVec.toNat_ofNat, Nat.shiftRight_zero]
  omega

theorem cpl18_toNat_of_le {f : Nat} (h : f ≤ 0xFFFF) : (cpl18 f).toNat = 0xFFFF - f := by
  rw [cpl18_toNat, Nat.mod_eq_of_lt (Nat.lt_succ_of_le h)]

theorem fold_le {s : Nat} (loop : Bool) (hs : s < 2 ^ 32) : fold s loop ≤ 0x1FFFE := by
  cases loop with
  | false => exact fold1_le hs
  | true => exact (fold_loop_le hs).trans (by decide)

/-! ### The result and its flags for each row (R105, R106) -/

section rows
variable {n : Nat}

theorem finFolded_of_lt (h : 0xFFFF < n) : finFolded n = true := decide_eq_true h

theorem finFolded_of_le (h : n ≤ 0xFFFF) : finFolded n = false := decide_eq_false (Nat.not_lt.2 h)

theorem finCpld_of_le (h : n ≤ 0xFFFF) (cplall : Bool) : finCpld n cplall = cplall := by
  rw [finCpld, finFolded_of_le h, Bool.false_or]

/-- A folded sum is a complemented one, whatever `CPLALL` says. -/
theorem finFlags_of_lt (h : 0xFFFF < n) (cplall : Bool) : finFolded n = true ∧ finCpld n cplall = true :=
  ⟨finFolded_of_lt h, finCpld_of_finFolded cplall (finFolded_of_lt h)⟩

variable {c : Ctrl}

theorem finResult_of_lt (h : 0xFFFF < n) : finResult n c = cpl18 (fold n c.foldloop) :=
  if_pos (finFolded_of_lt h)

theorem finResult_of_cplall (h : n ≤ 0xFFFF) (hc : c.cplall = true) : finResult n c = cpl18 n := by
  simp [finResult, finFolded_of_le h, hc]

theorem finResult_of_not_cplall (h : n ≤ 0xFFFF) (hc : c.cplall = false) : finResult n c = BitVec.ofNat 16 n := by
  simp [finResult, finFolded_of_le h, hc]

end rows

/-! ### `FIN` (R106, R108) -/

theorem exists_illegal_fin {rn : RegNum} {imm : Word} (h : rn ≠ 0#4 ∨ imm ≠ 0#16) :
    ∃ why, decode (8#4 ++ rn ++ imm) = .illegal why :=
  exists_illegal_of_whenZero_false (decode_wordOf 0x8#4 rn imm) (beq_and_beq_eq_false h)

/-- The block that a completed `FIN` leaves. -/
def Block.delivered (b : Block) : Block :=
  b.setResult (finResult b.acc.toNat b.ctrl) (finFolded b.acc.toNat) (finCpld b.acc.toNat b.ctrl.cplall)

theorem Block.delivered_of_lt {b : Block} (h : 0xFFFF < b.acc.toNat) :
    b.delivered = b.setResult (cpl18 (fold b.acc.toNat b.ctrl.foldloop)) true true := by
  obtain ⟨hfolded, hcpld⟩ := finFlags_of_lt h b.ctrl.cplall
  rw [Block.delivered, finResult_of_lt h, hfolded, hcpld]

theorem Block.delivered_of_cplall {b : Block} (h : b.acc.toNat ≤ 0xFFFF) (hc : b.ctrl.cplall = true) :
    b.delivered = b.setResult (cpl18 b.acc.toNat) false true := by
  rw [Block.delivered, finResult_of_cplall h hc, finCpld_of_le h, finFolded_of_le h, hc]

theorem Block.delivered_of_not_cplall {b : Block} (h : b.acc.toNat ≤ 0xFFFF) (hc : b.ctrl.cplall = false) :
    b.delivered = b.setResult (accLow b.acc) false false := by
  have hlow : BitVec.ofNat 16 b.acc.toNat = accLow b.acc := by
    rw [BitVec.ofNat_toNat, BitVec.setWidth_eq_extractLsb' (by decide), accLow]
  rw [Block.delivered, finResult_of_not_cplall h hc, finCpld_of_le h, finFolded_of_le h, hc, hlow]

theorem exec_fin_of_even {s : State} (hf : s.block.fault = false) (hv : s.block.pkv = false) :
    exec .fin s = .next (s.setBlock s.block.delivered) := by
  rw [exec, execFin, Block.finish_even hv]
  exact State.attempt_ok hf _

/-- A `FIN` that leaves no fault bit set had no byte pending, and delivered. -/
theorem eq_delivered_of_fin {s t : State} (h : exec .fin s = .next t) (ht : t.block.fault = false) :
    s.block.pkv = false ∧ t = s.setBlock s.block.delivered := by
  cases hf : s.block.fault with
  | true =>
    cases (State.attempt_of_fault hf _).symm.trans h
    exact absurd ht (by simp [hf])
  | false =>
    cases hv : s.block.pkv with
    | true =>
      cases (exec_fin_of_pending hf hv).symm.trans h
      exact absurd ht (by simp)
    | false =>
      cases (exec_fin_of_even hf hv).symm.trans h
      exact ⟨rfl, rfl⟩

/-- What a completed `FIN` writes depends on the sum and the mode bits alone. -/
theorem Block.delivered_congr {b b' : Block} (hacc : b'.acc = b.acc) (hctrl : b'.ctrl = b.ctrl) :
    b'.delivered.res = b.delivered.res ∧ b'.delivered.folded = b.delivered.folded ∧
      b'.delivered.cpld = b.delivered.cpld ∧ b'.delivered.done = b.delivered.done := by
  rw [Block.delivered, Block.delivered, hacc, hctrl]
  exact ⟨rfl, rfl, rfl, rfl⟩

/-! ### The obligations -/

/-- Settles O45, by the bounds of one pass. -/
theorem oneFoldPass : Obligations.OneFoldPass :=
  ⟨fun _ hs => ⟨rfl, fold1_le hs, fold1_of_le, le_of_lt_fold1⟩, by decide⟩

/-- Settles O46: the loop makes a second pass exactly when the first one carries, and that pass is its last. -/
theorem foldSinglePassOrLoop : Obligations.FoldSinglePassOrLoop :=
  fun _ hs => ⟨fold_legacy _, fold_loop_le hs, fold_loop_of_le,
    fun h => (fold_loop_of_lt hs h).trans (fold1_of_carry h (fold1_le hs)).symm, fold_modes_differ_iff hs⟩

/-- Settles O47: either fold is at most 0x1FFFE, which 18 bits hold. -/
theorem complementDropsTwoBits : Obligations.ComplementDropsTwoBits := by
  refine ⟨fun f _ => cpl18_toNat f, fun s loop hs => ⟨fold_le loop hs, ?_⟩⟩
  have hbus : fold s loop < 2 ^ 18 := (fold_le loop hs).trans_lt (by decide)
  rw [BitVec.toNat_ofNat, Nat.mod_eq_of_lt hbus]

/-- Settles O48: `FIN` raises `F_ODD` or delivers, and what it delivers is computed row by row. -/
theorem finDeliversTheResult : Obligations.FinDeliversTheResult := by
  refine fun s => ⟨rfl, fun _ _ => exists_illegal_fin, fun hf => State.attempt_of_fault hf _, exec_fin_of_pending,
    fun hf hv hn => ?_, fun hf hv hn hc => ?_, fun hf hv hn hc => ?_⟩
  · rw [exec_fin_of_even hf hv, Block.delivered_of_lt hn]
    rfl
  · rw [exec_fin_of_even hf hv, Block.delivered_of_cplall hn hc]
    rfl
  · rw [exec_fin_of_even hf hv, Block.delivered_of_not_cplall hn hc]
    rfl

/-- Settles O49: the rows of O48, with the fold in closed form in those above 0xFFFF. The `m` of the statement is `fold1` of the
sum by definition. -/
theorem resultInClosedForm : Obligations.ResultInClosedForm := by
  intro s hf hv
  have hs := s.block.acc.isLt
  refine ⟨_, _, _, exec_fin_of_even hf hv, fun hn hc => ?_, fun hn hc => ?_, fun hn hl => ?_, fun hn hl hm => ?_,
    fun hn hl hm => ?_⟩
  · rw [finResult_of_not_cplall hn hc, finFolded_of_le hn, finCpld_of_le hn, BitVec.toNat_ofNat]
    exact ⟨Nat.mod_eq_of_lt (Nat.lt_succ_of_le hn), rfl, hc⟩
  · rw [finResult_of_cplall hn hc, finFolded_of_le hn, finCpld_of_le hn]
    exact ⟨cpl18_toNat_of_le hn, rfl, hc⟩
  · refine ⟨?_, finFlags_of_lt hn _⟩
    rw [finResult_of_lt hn, hl]
    exact cpl18_toNat _
  · refine ⟨?_, finFlags_of_lt hn _⟩
    rw [finResult_of_lt hn, hl, fold_loop_of_le hm]
    exact cpl18_toNat_of_le hm
  · refine ⟨?_, finFlags_of_lt hn _⟩
    rw [finResult_of_lt hn, hl, cpl18_toNat_of_le (fold_loop_le hs)]
    exact congrArg (0xFFFF - ·) (fold_loop_of_lt hs hm)

/-- Settles O50: the first `FIN` changes neither the sum nor the mode bits, and no byte is pending, so the second one delivers
from the same values. -/
theorem finMayBeRepeated : Obligations.FinMayBeRepeated := by
  intro s t u v h ht hacc hpkv hctrl hf hagain
  obtain ⟨heven, rfl⟩ := eq_delivered_of_fin h ht
  cases hagain.symm.trans (exec_fin_of_even hf (hpkv.trans heven))
  exact ⟨rfl, Block.delivered_congr hacc hctrl⟩

end Sys2Proof.Machine
end

section
/-! PROOFS. The write half of the table of R119 (spec/43_control_register.md): for each group of state, the commands that may change
it. One case split on what a command can do for each group. -/

namespace Sys2Proof.Machine

section table
variable {i : Instr} {s t : State}

/-- The seven field registers (R13 to R19). -/
theorem Effect.wr_of_field_ne (h : Effect i s t)
    (hne : t.block.sport ≠ s.block.sport ∨ t.block.dport ≠ s.block.dport ∨ t.block.len ≠ s.block.len ∨
      t.block.sip0 ≠ s.block.sip0 ∨ t.block.sip1 ≠ s.block.sip1 ∨ t.block.dip0 ≠ s.block.dip0 ∨
      t.block.dip1 ≠ s.block.dip1) : ∃ n v, i = .wr n v := by
  cases h with
  | wrote n v _ hi _ _ _ => exact ⟨n, v, hi⟩
  | _ => simp at hne

theorem Effect.wr_ctrl_of_ctrl_ne (h : Effect i s t) (hne : t.block.ctrl ≠ s.block.ctrl) : ∃ v, i = .wr 7#4 v := by
  cases h with
  | wrote n v _ hi _ _ hw => exact ⟨v, hw.ctrl hne ▸ hi⟩
  | _ => exact absurd rfl hne

theorem Effect.adds_of_acc_ne (h : Effect i s t) (hne : t.block.acc ≠ s.block.acc) :
    i = .init ∨ (∃ w, i = .addw w) ∨ (∃ o1 o2, i = .pkip o1 o2) ∨ (∃ b, i = .pushb b) ∨ i = .hdr := by
  cases h with
  | started hi => exact .inl hi
  | added _ _ hi _ _ _ =>
    rcases hi with ⟨w, hi, -⟩ | ⟨o1, o2, hi, -⟩ | ⟨hi, -⟩
    · exact .inr (.inl ⟨w, hi⟩)
    · exact .inr (.inr (.inl ⟨o1, o2, hi⟩))
    · exact .inr (.inr (.inr (.inr hi)))
  | paired x _ hi _ _ _ _ => exact .inr (.inr (.inr (.inl ⟨x, hi⟩)))
  | wrote _ _ _ _ _ _ hw => exact absurd hw.acc hne
  | _ => exact absurd rfl hne

theorem Effect.pushb_of_packer_ne (h : Effect i s t) (hne : t.block.pkb ≠ s.block.pkb ∨ t.block.pkv ≠ s.block.pkv) :
    i = .init ∨ ∃ b, i = .pushb b := by
  cases h with
  | started hi => exact .inl hi
  | held x hi _ _ => exact .inr ⟨x, hi⟩
  | paired x _ hi _ _ _ _ => exact .inr ⟨x, hi⟩
  | wrote _ _ _ _ _ _ hw => simp [hw.pkb, hw.pkv] at hne
  | _ => simp at hne

theorem Effect.fin_of_result_ne (h : Effect i s t)
    (hne : t.block.res ≠ s.block.res ∨ t.block.done ≠ s.block.done ∨ t.block.folded ≠ s.block.folded ∨
      t.block.cpld ≠ s.block.cpld) : i = .init ∨ i = .fin := by
  cases h with
  | started hi => exact .inl hi
  | finished hi _ _ => exact .inr hi
  | wrote _ _ _ _ _ _ hw => simp [hw.res, hw.done, hw.folded, hw.cpld] at hne
  | _ => simp at hne

theorem Effect.adds_of_fOvf_ne (h : Effect i s t) (hne : t.block.fOvf ≠ s.block.fOvf) :
    i = .init ∨ (∃ w, i = .addw w) ∨ (∃ o1 o2, i = .pkip o1 o2) ∨ (∃ b, i = .pushb b) ∨ i = .hdr := by
  cases h with
  | started hi => exact .inl hi
  | overflowed _ hi _ _ =>
    rcases hi with ⟨w, hi, -⟩ | ⟨o1, o2, hi, -⟩ | ⟨hi, -⟩ | ⟨x, hi, -, -⟩
    · exact .inr (.inl ⟨w, hi⟩)
    · exact .inr (.inr (.inl ⟨o1, o2, hi⟩))
    · exact .inr (.inr (.inr (.inr hi)))
    · exact .inr (.inr (.inr (.inl ⟨x, hi⟩)))
  | wrote _ _ _ _ _ _ hw => exact absurd hw.fOvf hne
  | _ => exact absurd rfl hne

theorem Effect.fin_of_fOdd_ne (h : Effect i s t) (hne : t.block.fOdd ≠ s.block.fOdd) : i = .init ∨ i = .fin := by
  cases h with
  | started hi => exact .inl hi
  | oddPayload hi _ _ => exact .inr hi
  | wrote _ _ _ _ _ _ hw => exact absurd hw.fOdd hne
  | _ => exact absurd rfl hne

theorem Effect.registerAccess_of_fIll_ne (h : Effect i s t) (hne : t.block.fIll ≠ s.block.fIll) :
    i = .init ∨ (∃ n v, i = .wr n v) ∨ ∃ n, i = .rd n := by
  cases h with
  | started hi => exact .inl hi
  | wrote n v _ hi _ _ _ => exact .inr (.inl ⟨n, v, hi⟩)
  | refusedWrite n v hi _ _ => exact .inr (.inl ⟨n, v, hi⟩)
  | refusedRead n hi _ _ => exact .inr (.inr ⟨n, hi⟩)
  | _ => exact absurd rfl hne

theorem Effect.rd_of_rdata_ne (h : Effect i s t) (hne : t.block.rdata ≠ s.block.rdata) : ∃ n, i = .rd n := by
  cases h with
  | read n _ hi _ => exact ⟨n, hi⟩
  | wrote _ _ _ _ _ _ hw => exact absurd hw.rdata hne
  | _ => exact absurd rfl hne

end table

/-! ### The obligation -/

/-- Settles O22, one row of the table after the other. -/
theorem onlyTheTabulatedCommandsWrite : Obligations.OnlyTheTabulatedCommandsWrite := by
  intro i s t h
  have he := exec_effect h
  exact ⟨he.wr_of_field_ne, he.wr_ctrl_of_ctrl_ne, he.adds_of_acc_ne, he.pushb_of_packer_ne, he.fin_of_result_ne,
    he.adds_of_fOvf_ne, he.fin_of_fOdd_ne, he.registerAccess_of_fIll_ne, he.rd_of_rdata_ne⟩

end Sys2Proof.Machine
end

section
/-! PROOFS. What a run delivers is never read back (R119, spec/70_reset_and_hazards.md R152): a command that starts with other
values of `RES`, `RDATA`, `DONE`, `FOLDED`, `CPLD` ends with other values of these five at most. Replacing the five is carried
through each shared operation and then through each command. -/

namespace Sys2Proof.Machine

/-! ### The same block with other results -/

/-- The five items that a run delivers to the host (R25 to R27, R32, R33). -/
structure Results where
  res : Word
  rdata : Word
  done : Bool
  folded : Bool
  cpld : Bool

def Block.withResults (o : Results) (b : Block) : Block :=
  { b with res := o.res, rdata := o.rdata, done := o.done, folded := o.folded, cpld := o.cpld }

def State.withResults (o : Results) (s : State) : State := s.setBlock (s.block.withResults o)

section other_results
variable (o : Results) (b : Block) (s : State)

@[simp] theorem State.withResults_block : (s.withResults o).block = s.block.withResults o := rfl
@[simp] theorem State.withResults_cfg : (s.withResults o).cfg = s.cfg := rfl
@[simp] theorem Block.withResults_acc : (b.withResults o).acc = b.acc := rfl
@[simp] theorem Block.withResults_pkb : (b.withResults o).pkb = b.pkb := rfl
@[simp] theorem Block.withResults_pkv : (b.withResults o).pkv = b.pkv := rfl

theorem State.setBlock_withResults (o' : Results) :
    (s.setBlock b).withResults o' = (s.withResults o).setBlock (b.withResults o') := rfl

theorem Block.raise_withResults (k : FaultBit) : (b.withResults o).raise k = (b.raise k).withResults o := by
  cases k <;> rfl

/-! ### The shared operations -/

/-- The gate passes a command that does the same under other results, up to the results it leaves. -/
theorem State.attempt_withResults {s t : State} {act act' : Except FaultBit Block}
    (hact : ∃ o', act' = act.map (Block.withResults o')) (h : s.attempt act = .next t) :
    ∃ o', (s.withResults o).attempt act' = .next (t.withResults o') := by
  obtain ⟨o', rfl⟩ := hact
  rcases State.attempt_cases h with ⟨hf, rfl⟩ | ⟨hf, b, rfl, rfl⟩ | ⟨hf, k, rfl, rfl⟩
  · exact ⟨o, State.attempt_of_fault (s := t.withResults o) hf _⟩
  · exact ⟨o', State.attempt_ok (s := s.withResults o) hf _⟩
  · refine ⟨o, ?_⟩
    rw [State.setBlock_withResults o, ← Block.raise_withResults]
    exact State.attempt_error (s := s.withResults o) hf k

theorem Block.accumulate_withResults (cfg : Config) (ws : List Word) :
    (b.withResults o).accumulate cfg ws = (b.accumulate cfg ws).map (Block.withResults o) := by
  simp only [Block.accumulate, Block.withResults_acc, apply_ite (Except.map (Block.withResults o))]
  rfl

theorem Block.pushByte_withResults (cfg : Config) (x : Byte) :
    (b.withResults o).pushByte cfg x = (b.pushByte cfg x).map (Block.withResults o) := by
  simp only [Block.pushByte, Block.accumulate_withResults, Block.withResults_pkv, Block.withResults_pkb]
  split
  · cases b.accumulate cfg [packPl b.pkb x] <;> rfl
  · rfl

/-- `FIN` replaces four of the results and keeps `RDATA`. -/
theorem Block.finish_withResults : ∃ o', (b.withResults o).finish = b.finish.map (Block.withResults o') := by
  refine ⟨⟨finResult b.acc.toNat b.ctrl, o.rdata, true, finFolded b.acc.toNat, finCpld b.acc.toNat b.ctrl.cplall⟩, ?_⟩
  cases hv : b.pkv with
  | true => rw [Block.finish_odd hv, Block.finish_odd (b := b.withResults o) hv]; rfl
  | false => rw [Block.finish_even hv, Block.finish_even (b := b.withResults o) hv]; rfl

/-- `RES` and `STATUS` can be read and not written. -/
theorem Block.writeNumber_withResults (n : RegNum) (v : Word) :
    (b.withResults o).writeNumber n v = (b.writeNumber n v).map (Block.withResults o) := by
  simp only [Block.writeNumber]
  cases regOfNumber n with
  | none => rfl
  | some r =>
    cases r with
    | ctrl => simp only [Block.regWrite, Option.map_map]; rfl
    | _ => rfl

end other_results

/-! ### The commands -/

theorem exec_withResults {i : Instr} {s t : State} (o : Results) (h : exec i s = .next t) :
    ∃ o', exec i (s.withResults o) = .next (t.withResults o') := by
  cases i with
  | nop => cases h; exact ⟨o, rfl⟩
  | init => cases h; exact ⟨⟨0, o.rdata, false, false, false⟩, rfl⟩
  | wr n v =>
    simp only [exec, execWr, State.withResults_block, Block.writeNumber_withResults] at h ⊢
    cases hw : s.block.writeNumber n v with
    | none => rw [hw] at h; exact State.attempt_withResults o ⟨o, rfl⟩ h
    | some b => rw [hw] at h; exact State.attempt_withResults o ⟨o, rfl⟩ h
  | rd n =>
    simp only [exec, execRd, Block.readNumber] at h ⊢
    cases hr : regOfNumber n with
    | none => rw [hr] at h; exact State.attempt_withResults o ⟨o, rfl⟩ h
    | some r =>
      rw [hr] at h
      cases h
      exact ⟨{ o with rdata := (s.block.withResults o).regRead s.cfg r }, rfl⟩
  | addw w => exact State.attempt_withResults o ⟨o, Block.accumulate_withResults o _ _ _⟩ h
  | pkip o1 o2 => exact State.attempt_withResults o ⟨o, Block.accumulate_withResults o _ _ _⟩ h
  | pushb x => exact State.attempt_withResults o ⟨o, Block.pushByte_withResults o _ _ _⟩ h
  | hdr => exact State.attempt_withResults o ⟨o, Block.accumulate_withResults o _ _ _⟩ h
  | fin => exact State.attempt_withResults o (Block.finish_withResults o _) h

/-! ### The obligation -/

/-- Settles O25, by `exec_withResults`. -/
theorem resultsAreNeverReadBack : Obligations.ResultsAreNeverReadBack := by
  intro i s t r x d f k h
  obtain ⟨⟨r', x', d', f', k'⟩, h'⟩ := exec_withResults ⟨r, x, d, f, k⟩ h
  exact ⟨r', x', d', f', k', h'⟩

end Sys2Proof.Machine
end

section
/-! PROOFS. The control and register-access commands `NOP`, `INIT`, `WR`, `RD` (spec/43_control_register.md R115 to R118): what each
does to the state, and which words they have. -/

namespace Sys2Proof.Machine

/-! ### Words that are illegal (R61) -/

/-- The only command with opcode 0 is `NOP`. -/
theorem eq_nop_of_opField_encode {i : Instr} (h : opField (encode i) = 0#4) : i = .nop := by
  cases i with
  | nop => rfl
  | _ => simp [encode] at h

theorem exists_illegal_nop {c : CmdWord} (hop : opField c = 0#4) (hc : c ≠ encode .nop) : ∃ why, decode c = .illegal why := by
  refine exists_illegal_of_no_command fun i hd => hc ?_
  obtain rfl : encode i = c := encode_of_decode hd
  rw [eq_nop_of_opField_encode hop]

theorem exists_illegal_rd (n : RegNum) {imm : Word} (h : imm ≠ 0#16) : ∃ why, decode (3#4 ++ n ++ imm) = .illegal why :=
  exists_illegal_of_whenZero_false (decode_wordOf 0x3#4 n imm) (beq_eq_false_iff_ne.2 h)

/-! ### `INIT` (R116) -/

theorem Block.startRun_status (b : Block) : b.startRun.status = 0#16 := by
  simp only [Block.status, Block.startRun_pkv, Block.startRun_done, Block.startRun_folded, Block.startRun_cpld,
    Block.startRun_fOvf, Block.startRun_fOdd, Block.startRun_fIll]
  decide

theorem Block.startRun_startsRun (b : Block) : b.startRun.startsRun = true := rfl

/-- Behind a closed gate a command changes nothing, or it is `INIT`, or a read, which writes no fault bit. -/
theorem Effect.init_of_fault_cleared {i : Instr} {s t : State} (h : Effect i s t) (hs : s.block.fault = true)
    (ht : t.block.fault = false) : i = .init := by
  cases h with
  | started hi => exact hi
  | read _ _ _ _ => exact absurd hs (Bool.eq_false_iff.1 ht)
  | _ => exact absurd hs (Bool.eq_false_iff.1 ‹s.block.fault = false›)

/-! ### `WR` (R117) -/

section write
variable {s : State} {n : RegNum} {v : Word}

theorem exec_wr_of_fault (hf : s.block.fault = true) : exec (.wr n v) s = .next s := by
  simp only [exec, execWr]
  split <;> exact State.attempt_of_fault hf _

theorem exec_wr_of_some {b : Block} (hf : s.block.fault = false) (h : s.block.writeNumber n v = some b) :
    exec (.wr n v) s = .next (s.setBlock b) := by
  simp only [exec, execWr, h]
  exact State.attempt_ok hf b

/-- With the reserved bits zero, a write of `CTRL` selects the mode bits (R21). -/
theorem Block.writeNumber_ctrl (b : Block) (h : v.extractLsb' 3 13 = 0#13) :
    b.writeNumber 7#4 v = some (b.setCtrl ⟨v.getLsbD 0, v.getLsbD 1, v.getLsbD 2⟩) := by
  simp [Block.writeNumber, regOfNumber, Block.regWrite, Ctrl.ofWord, h]

end write

/-! ### `RD` (R118) -/

theorem exec_rd_reserved_of_fault {s : State} {n : RegNum} (hf : s.block.fault = true) (hn : 13 ≤ n.toNat) :
    exec (.rd n) s = .next s := by
  simp only [exec, execRd, Block.readNumber, (regOfNumber_eq_none_iff n).2 hn]
  exact State.attempt_of_fault hf _

theorem exec_rd_of_some {s : State} {n : RegNum} (r : Reg) (h : regOfNumber n = some r) :
    exec (.rd n) s = .next (s.setBlock (s.block.setRdata (s.block.regRead s.cfg r))) := by
  simp only [exec, execRd, Block.readNumber, h, Option.map_some]

/-- `CTRL` as a number: the mode bits have the weights 4, 2, 1 (R21). -/
theorem Ctrl.toWord_eq_ofNat (c : Ctrl) :
    c.toWord = BitVec.ofNat 16 (c.foldloop.toNat * 4 + c.cplall.toNat * 2 + c.ippad.toNat) := by
  obtain ⟨p, q, l⟩ := c
  revert p q l
  decide

/-! ### The obligations -/

/-- Settles O31: the only command with opcode 0 is `NOP`, whose one word is 0. -/
theorem nopChangesNothing : Obligations.NopChangesNothing :=
  ⟨fun _ => rfl, rfl, fun _ => exists_illegal_nop⟩

/-- Settles O32: `INIT` leaves `startRun`, and the effects of the other commands keep a pending fault. -/
theorem initStartsANewRun : Obligations.InitStartsANewRun :=
  ⟨rfl, fun s => ⟨s.block.startRun, rfl, rfl, s.block.startRun_status, s.block.startRun_startsRun,
    fun _ _ hs h ht => (exec_effect h).init_of_fault_cleared hs ht⟩⟩

/-- Settles O33: each number of a field register names it, `CTRL` is written when its reserved bits are zero, and any other write
fails. -/
theorem wrWritesTheNamedRegister : Obligations.WrWritesTheNamedRegister := by
  intro n v s
  exact ⟨encode_wr_toNat n v, exec_wr_of_fault, fun hf =>
    ⟨exec_wr_of_some hf rfl, exec_wr_of_some hf rfl, exec_wr_of_some hf rfl, exec_wr_of_some hf rfl, exec_wr_of_some hf rfl,
     exec_wr_of_some hf rfl, exec_wr_of_some hf rfl, fun hv => exec_wr_of_some hf (s.block.writeNumber_ctrl hv),
     fun hv => exec_wr_of_none hf (s.block.writeNumber_ctrl_reserved hv), exec_wr_readOnly v hf⟩⟩

/-- Settles O34: a number below 13 names a register, whose value goes to `RDATA` past the gate. -/
theorem rdReadsTheNamedRegister : Obligations.RdReadsTheNamedRegister := by
  intro n s
  rw [← Ctrl.toWord_eq_ofNat]
  exact ⟨encode_rd_toNat n, fun _ => exists_illegal_rd n, exec_rd_of_some .sport rfl, exec_rd_of_some .dport rfl,
    exec_rd_of_some .len rfl, exec_rd_of_some .sip0 rfl, exec_rd_of_some .sip1 rfl, exec_rd_of_some .dip0 rfl,
    exec_rd_of_some .dip1 rfl, exec_rd_of_some .ctrl rfl, exec_rd_of_some .status rfl, exec_rd_of_some .accl rfl,
    exec_rd_of_some .acch rfl, exec_rd_of_some .res rfl, exec_rd_of_some .pkb rfl,
    fun hn hf => exec_rd_reserved hf hn, fun hn hf => exec_rd_reserved_of_fault hf hn⟩

end Sys2Proof.Machine
end

section
/-! PROOFS. Faults (spec/60_exceptions.md R126 to R131): which command raises which fault is one table, a step with no
fault pending raises what its word has in the table and then changes nothing else, and a closed gate lets through no command but
`INIT` that touches a fault bit. -/

namespace Sys2Proof.Machine

/-! ### The fault bits -/

/-- The bit of `STATUS` that a fault sets (R125). -/
def Block.faultBit (b : Block) : FaultBit → Bool
  | .ovf => b.fOvf
  | .odd => b.fOdd
  | .ill => b.fIll

theorem Block.fault_of_faultBit {b : Block} {k : FaultBit} (h : b.faultBit k = true) : b.fault = true := by
  refine b.fault_eq_true_iff.2 ?_
  cases k with
  | ovf => exact .inl h
  | odd => exact .inr (.inl h)
  | ill => exact .inr (.inr h)

/-- A fault raised while none is pending is the only one. -/
theorem Block.raise_faultBit_iff {b : Block} (hf : b.fault = false) (j k : FaultBit) :
    (b.raise k).faultBit j = true ↔ j = k := by
  obtain ⟨hovf, hodd, hill⟩ := b.fault_eq_false_iff.1 hf
  cases j <;> cases k <;> simp [Block.faultBit, hovf, hodd, hill]

theorem WriteKeeps.fault {n : RegNum} {v : Word} {b b' : Block} (h : WriteKeeps n v b b') : b'.fault = b.fault := by
  rw [Block.fault, h.fOvf, h.fOdd, h.fIll, Block.fault]

/-! ### The causes of a fault (R129 to R131) -/

/-- The table of causes: the command raises the fault when it is performed on the block with no fault pending. -/
def Raises (cfg : Config) (b : Block) (i : Instr) : FaultBit → Prop
  | .ovf =>
    (∃ w, i = .addw w ∧ accLimit cfg ≤ b.acc.toNat + w.toNat) ∨
    (∃ o1 o2, i = .pkip o1 o2 ∧ accLimit cfg ≤ b.acc.toNat + (packIp o1 o2 b.ctrl.ippad).toNat) ∨
    (∃ x, i = .pushb x ∧ b.pkv = true ∧ accLimit cfg ≤ b.acc.toNat + (packPl b.pkb x).toNat) ∨
    (i = .hdr ∧ accLimit cfg ≤ hdrTotal b)
  | .odd => i = .fin ∧ b.pkv = true
  | .ill =>
    (∃ n v, i = .wr n v ∧ 8 ≤ n.toNat) ∨ (∃ v : Word, i = .wr 7#4 v ∧ v.extractLsb' 3 13 ≠ 0#13) ∨
    (∃ n, i = .rd n ∧ 13 ≤ n.toNat)

/-- The causes of a fault among all words: an `Illegal` one raises `F_ILL` (R131). -/
def WordRaises (cfg : Config) (b : Block) (c : CmdWord) (k : FaultBit) : Prop :=
  (∃ i, decode c = .command i ∧ Raises cfg b i k) ∨ (k = .ill ∧ ∃ why, decode c = .illegal why)

/-- The table is right: a command that has a cause raises the fault. -/
theorem exec_of_raises {s : State} {i : Instr} {k : FaultBit} (hf : s.block.fault = false)
    (h : Raises s.cfg s.block i k) : exec i s = .next (s.setBlock (s.block.raise k)) := by
  cases k with
  | ovf =>
    rcases h with ⟨w, rfl, hover⟩ | ⟨o1, o2, rfl, hover⟩ | ⟨x, rfl, hv, hover⟩ | ⟨rfl, hover⟩
    · exact State.attempt_accumulate_of_overflow hf hover
    · exact State.attempt_accumulate_of_overflow hf hover
    · exact exec_pushb_of_overflow x hf hv hover
    · exact exec_hdr_of_overflow hf hover
  | odd =>
    obtain ⟨rfl, hv⟩ := h
    exact exec_fin_of_pending hf hv
  | ill =>
    rcases h with ⟨n, v, rfl, hn⟩ | ⟨v, rfl, hv⟩ | ⟨n, rfl, hn⟩
    · exact exec_wr_readOnly v hf hn
    · exact exec_wr_of_none hf (s.block.writeNumber_ctrl_reserved hv)
    · exact exec_rd_reserved hf hn

/-- The table is complete: with no fault pending a command leaves none pending, or raises one it has a cause for (R126). -/
theorem Effect.fault_cases {i : Instr} {s t : State} (h : Effect i s t) (hf : s.block.fault = false) :
    t.block.fault = false ∨ ∃ k, Raises s.cfg s.block i k ∧ t = s.setBlock (s.block.raise k) := by
  cases h with
  | refusedWrite n v hi _ hcause =>
    rcases hcause with hn | ⟨rfl, hv⟩
    · exact .inr ⟨.ill, .inl ⟨n, v, hi, hn⟩, rfl⟩
    · exact .inr ⟨.ill, .inr (.inl ⟨v, hi, hv⟩), rfl⟩
  | refusedRead n hi _ hn => exact .inr ⟨.ill, .inr (.inr ⟨n, hi, hn⟩), rfl⟩
  | oddPayload hi _ hv => exact .inr ⟨.odd, ⟨hi, hv⟩, rfl⟩
  | overflowed ws hi _ hover =>
    refine .inr ⟨.ovf, ?_, rfl⟩
    rcases hi with ⟨w, hi, rfl⟩ | ⟨o1, o2, hi, rfl⟩ | ⟨hi, rfl⟩ | ⟨x, hi, hv, rfl⟩
    · exact .inl ⟨w, hi, by simpa using hover⟩
    · exact .inr (.inl ⟨o1, o2, hi, by simpa using hover⟩)
    · exact .inr (.inr (.inr ⟨hi, by rwa [acc_add_hdrAddends_sum] at hover⟩))
    · exact .inr (.inr (.inl ⟨x, hi, hv, by simpa using hover⟩))
  | wrote _ _ _ _ _ _ hw => exact .inl (hw.fault.trans hf)
  | started _ => exact .inl rfl
  | _ => exact .inl hf

/-! ### Steps with no fault pending -/

theorem step_of_wordRaises {s : State} {c : CmdWord} {rest : List Event} {k : FaultBit} (hf : s.block.fault = false)
    (hb : s.inbox = .cmd c :: rest) (h : WordRaises s.cfg s.block c k) :
    step s = .next ((s.setInbox rest).setBlock (s.block.raise k)) := by
  rcases h with ⟨i, hd, hcause⟩ | ⟨rfl, why, hd⟩
  · rw [step_command hb hd]
    exact exec_of_raises (s := s.setInbox rest) hf hcause
  · rw [step_illegal hb hd]
    exact State.attempt_error (s := s.setInbox rest) hf .ill

/-- With no fault pending a step leaves none pending, or raises one its word has a cause for. -/
theorem step_fault_cases {s t : State} (hf : s.block.fault = false) (h : step s = .next t) :
    t.block.fault = false ∨
    ∃ c rest k, s.inbox = .cmd c :: rest ∧ WordRaises s.cfg s.block c k ∧ t.block = s.block.raise k := by
  rcases step_cases h with ⟨-, rfl⟩ | ⟨rest, -, rfl⟩ | ⟨c, rest, i, hb, hd, he⟩ | ⟨c, rest, why, -, -, -, rfl⟩ |
    ⟨c, rest, why, hb, hd, -, rfl⟩
  case inr.inl => exact .inl rfl
  case inr.inr.inl =>
    rcases (exec_effect he).fault_cases hf with hnone | ⟨k, hcause, rfl⟩
    · exact .inl hnone
    · exact .inr ⟨c, rest, k, hb, .inl ⟨i, hd, hcause⟩, rfl⟩
  case inr.inr.inr.inr => exact .inr ⟨c, rest, .ill, hb, .inr ⟨rfl, why, hd⟩, rfl⟩
  all_goals exact .inl hf

/-- The causes of each fault, complete: a step raises the fault exactly when its word has a cause. -/
theorem step_faultBit_iff {s t : State} (hf : s.block.fault = false) (h : step s = .next t) (k : FaultBit) :
    t.block.faultBit k = true ↔ ∃ c rest, s.inbox = .cmd c :: rest ∧ WordRaises s.cfg s.block c k := by
  constructor
  · intro hk
    rcases step_fault_cases hf h with hnone | ⟨c, rest, j, hb, hcause, ht⟩
    · exact absurd (Block.fault_of_faultBit hk) (by simp [hnone])
    · rw [ht, Block.raise_faultBit_iff hf] at hk
      exact ⟨c, rest, hb, hk ▸ hcause⟩
  · rintro ⟨c, rest, hb, hcause⟩
    rw [step_of_wordRaises hf hb hcause] at h
    cases h
    exact (Block.raise_faultBit_iff hf k k).2 rfl

/-- A step raises at most one fault (R128). -/
theorem step_faultBit_unique {s t : State} (hf : s.block.fault = false) (h : step s = .next t) {j k : FaultBit}
    (hj : t.block.faultBit j = true) (hk : t.block.faultBit k = true) : j = k := by
  rcases step_fault_cases hf h with hnone | ⟨_, _, m, -, -, ht⟩
  · exact absurd (Block.fault_of_faultBit hj) (by simp [hnone])
  · rw [ht, Block.raise_faultBit_iff hf] at hj hk
    rw [hj, hk]

/-! ### A closed gate (R128) -/

section closed
variable {s t : State} {i : Instr}

theorem exec_gated_of_fault (hf : s.block.fault = true) (hnop : i ≠ .nop) (hinit : i ≠ .init) (hrd : ∀ n, i ≠ .rd n) :
    exec i s = .next s := by
  cases i with
  | nop => exact absurd rfl hnop
  | init => exact absurd rfl hinit
  | rd n => exact absurd rfl (hrd n)
  | wr n v => exact exec_wr_of_fault hf
  | _ => exact State.attempt_of_fault hf _

/-- A word that is neither `NOP`, `INIT` nor an `RD` only leaves the inbox. -/
theorem step_gated_of_fault {c : CmdWord} {rest : List Event} (hf : s.block.fault = true) (hb : s.inbox = .cmd c :: rest)
    (hnop : decode c ≠ .command .nop) (hinit : decode c ≠ .command .init) (hrd : ∀ n, decode c ≠ .command (.rd n)) :
    step s = .next (s.setInbox rest) := by
  cases hd : decode c with
  | illegal why =>
    rw [step_illegal hb hd]
    exact State.attempt_of_fault (s := s.setInbox rest) hf _
  | command i =>
    rw [hd] at hnop hinit hrd
    rw [step_command hb hd]
    exact exec_gated_of_fault (s := s.setInbox rest) hf (fun hi => hnop (hi ▸ rfl)) (fun hi => hinit (hi ▸ rfl))
      (fun n hi => hrd n (hi ▸ rfl))

/-- A legal read goes past the gate, so it is the same with a fault pending or not (R118). -/
theorem step_rd_legal {c : CmdWord} {rest : List Event} {n : RegNum} (hb : s.inbox = .cmd c :: rest)
    (hd : decode c = .command (.rd n)) (hn : n.toNat ≤ 12) :
    ∃ v, s.block.readNumber s.cfg n = some v ∧ step s = .next ((s.setInbox rest).setBlock (s.block.setRdata v)) := by
  cases hreg : regOfNumber n with
  | none => exact absurd ((regOfNumber_eq_none_iff n).1 hreg) (by omega)
  | some r =>
    refine ⟨s.block.regRead s.cfg r, by rw [Block.readNumber, hreg, Option.map_some], ?_⟩
    rw [step_command hb hd]
    exact exec_rd_of_some r hreg

/-- A closed gate lets through only `INIT` and a write of `RDATA`. -/
theorem Effect.cases_of_fault (h : Effect i s t) (hf : s.block.fault = true) :
    t = s ∨ (i = .init ∧ t = s.setBlock s.block.startRun) ∨ ∃ v, t = s.setBlock (s.block.setRdata v) := by
  cases h with
  | same _ => exact .inl rfl
  | started hi => exact .inr (.inl ⟨hi, rfl⟩)
  | read _ v _ _ => exact .inr (.inr ⟨v, rfl⟩)
  | _ => exact absurd hf (Bool.eq_false_iff.1 ‹s.block.fault = false›)

/-- Everything a step can do to the block while a fault is pending. -/
theorem step_cases_of_fault (hf : s.block.fault = true) (h : step s = .next t) :
    t.block = s.block ∨ (∃ v, t.block = s.block.setRdata v) ∨
    (t.block = Block.reset ∧ ∃ rest, s.inbox = .rst :: rest) ∨
    (t.block = s.block.startRun ∧ ∃ c rest, s.inbox = .cmd c :: rest ∧ decode c = .command .init) := by
  rcases step_cases h with ⟨-, rfl⟩ | ⟨rest, hb, rfl⟩ | ⟨c, rest, i, hb, hd, he⟩ | ⟨c, rest, why, -, -, -, rfl⟩ |
    ⟨c, rest, why, -, -, hnone, -⟩
  case inr.inl => exact .inr (.inr (.inl ⟨rfl, rest, hb⟩))
  case inr.inr.inl =>
    rcases (exec_effect he).cases_of_fault hf with rfl | ⟨rfl, rfl⟩ | ⟨v, rfl⟩
    · exact .inl rfl
    · exact .inr (.inr (.inr ⟨rfl, c, rest, hb, hd⟩))
    · exact .inr (.inl ⟨v, rfl⟩)
  case inr.inr.inr.inr => exact absurd hf (by simp [hnone])
  all_goals exact .inl rfl

/-- Behind a closed gate no command writes a field register or a mode bit, and none sets a fault bit. -/
theorem step_cmd_frame_of_fault {c : CmdWord} {rest : List Event} (hf : s.block.fault = true)
    (hb : s.inbox = .cmd c :: rest) (h : step s = .next t) :
    (t.block.sport = s.block.sport ∧ t.block.dport = s.block.dport ∧ t.block.len = s.block.len ∧
      t.block.sip0 = s.block.sip0 ∧ t.block.sip1 = s.block.sip1 ∧ t.block.dip0 = s.block.dip0 ∧
      t.block.dip1 = s.block.dip1 ∧ t.block.ctrl = s.block.ctrl) ∧
    ∀ k, t.block.faultBit k = true → s.block.faultBit k = true := by
  rcases step_cases_of_fault hf h with ht | ⟨v, ht⟩ | ⟨-, rest', hrst⟩ | ⟨ht, -⟩
  · rw [ht]; exact ⟨by simp, fun _ => id⟩
  · rw [ht]; exact ⟨by simp, fun k hk => by cases k <;> exact hk⟩
  · rw [hb] at hrst; cases hrst
  · rw [ht]; exact ⟨by simp, fun k hk => absurd (Block.fault_of_faultBit hk) (by simp)⟩

/-- Only reset and `INIT` end a fault; until then `DONE` is kept too (R127). -/
theorem step_keeps_fault (hf : s.block.fault = true) (h : step s = .next t) (hrst : ∀ rest, s.inbox ≠ .rst :: rest)
    (hinit : ∀ c rest, s.inbox = .cmd c :: rest → decode c ≠ .command .init) :
    (∀ k, t.block.faultBit k = s.block.faultBit k) ∧ t.block.fault = true ∧ t.block.done = s.block.done := by
  rcases step_cases_of_fault hf h with ht | ⟨v, ht⟩ | ⟨-, rest, hb⟩ | ⟨-, c, rest, hb, hd⟩
  · rw [ht]; exact ⟨fun _ => rfl, hf, rfl⟩
  · rw [ht]; exact ⟨fun k => by cases k <;> rfl, hf, rfl⟩
  · exact absurd hb (hrst rest)
  · exact absurd hd (hinit c rest hb)

end closed

/-! ### The obligations -/

/-- Settles O15, by `Effect.fault_cases`. -/
theorem faultsArePrecise : Obligations.FaultsArePrecise := by
  intro i s t h hf ht
  rcases (exec_effect h).fault_cases hf with hnone | ⟨k, -, rfl⟩
  · exact absurd ht (by simp [hnone])
  · cases k with
    | ovf => exact .inl rfl
    | odd => exact .inr (.inl rfl)
    | ill => exact .inr (.inr rfl)

/-- Settles O16: a bit that is set closes the gate, and a closed gate keeps the bits and `DONE`. -/
theorem faultBitsAreSticky : Obligations.FaultBitsAreSticky := by
  intro s t h hrst hinit
  have hsticky : ∀ k, s.block.faultBit k = true → t.block.faultBit k = true := fun k hk =>
    ((step_keeps_fault (Block.fault_of_faultBit hk) h hrst hinit).1 k).trans hk
  refine ⟨hsticky .ovf, hsticky .odd, hsticky .ill, fun hf hd => ?_, fun hf => ?_⟩
  all_goals obtain ⟨-, hfault, hdone⟩ := step_keeps_fault hf h hrst hinit
  · exact hdone.trans hd
  · simp [Block.endsWell, hfault]

/-- Settles O17: the row of `F_OVF` in the table. -/
theorem causesOfOverflow : Obligations.CausesOfOverflow := by
  intro s t hf h
  refine (step_faultBit_iff hf h .ovf).trans ⟨?_, ?_⟩
  · rintro ⟨c, rest, hb, ⟨i, hd, hcause⟩ | ⟨hk, -⟩⟩
    · exact ⟨c, rest, i, hb, hd, hcause⟩
    · cases hk
  · rintro ⟨c, rest, i, hb, hd, hcause⟩
    exact ⟨c, rest, hb, .inl ⟨i, hd, hcause⟩⟩

/-- Settles O18: the row of `F_ODD` in the table. -/
theorem causesOfOddPayload : Obligations.CausesOfOddPayload := by
  intro s t hf h
  refine (step_faultBit_iff hf h .odd).trans ⟨?_, ?_⟩
  · rintro ⟨c, rest, hb, ⟨i, hd, rfl, hv⟩ | ⟨hk, -⟩⟩
    · exact ⟨c, rest, hb, hd, hv⟩
    · cases hk
  · rintro ⟨c, rest, hb, hd, hv⟩
    exact ⟨c, rest, hb, .inl ⟨.fin, hd, rfl, hv⟩⟩

/-- Settles O19: the row of `F_ILL` in the table, and the words that are no command. -/
theorem causesOfIllegal : Obligations.CausesOfIllegal := by
  intro s t hf h
  refine (step_faultBit_iff hf h .ill).trans
    (exists_congr fun c => exists_congr fun rest => and_congr_right fun _ => ⟨?_, ?_⟩)
  · rintro (⟨i, hd, ⟨n, v, rfl, hn⟩ | ⟨v, rfl, hv⟩ | ⟨n, rfl, hn⟩⟩ | ⟨-, hwhy⟩)
    · exact .inr (.inl ⟨n, v, hd, hn⟩)
    · exact .inr (.inr (.inl ⟨v, hd, hv⟩))
    · exact .inr (.inr (.inr ⟨n, hd, hn⟩))
    · exact .inl hwhy
  · rintro (hwhy | ⟨n, v, hd, hn⟩ | ⟨v, hd, hv⟩ | ⟨n, hd, hn⟩)
    · exact .inr ⟨rfl, hwhy⟩
    · exact .inl ⟨_, hd, .inl ⟨n, v, rfl, hn⟩⟩
    · exact .inl ⟨_, hd, .inr (.inl ⟨v, rfl, hv⟩)⟩
    · exact .inl ⟨_, hd, .inr (.inr ⟨n, rfl, hn⟩)⟩

/-- Settles O14: closed, the gate lets through what the three ungated rules say; open, the step is the word's own rule. -/
theorem faultGate : Obligations.FaultGate := by
  intro s c rest hb
  refine ⟨fun hf => ⟨step_command hb, fun hd => ⟨_, rfl, step_command hb hd, rfl⟩, fun n => step_rd_legal hb,
    fun n hd hn => ?_, step_gated_of_fault hf hb, fun t h => ?_⟩, fun hf => ⟨fun i => step_command hb,
    fun hd => step_of_wordRaises hf hb (.inr ⟨rfl, hd⟩), fun t h => ?_⟩⟩
  · rw [step_command hb hd]
    exact exec_rd_reserved_of_fault (s := s.setInbox rest) hf hn
  · obtain ⟨hfields, hbits⟩ := step_cmd_frame_of_fault hf hb h
    exact ⟨hfields, hbits .ovf, hbits .odd, hbits .ill⟩
  · have hunique (j k : FaultBit) (hjk : j ≠ k) : ¬(t.block.faultBit j = true ∧ t.block.faultBit k = true) :=
      fun ⟨hj, hk⟩ => hjk (step_faultBit_unique hf h hj hk)
    exact ⟨hunique .ovf .odd (by decide), hunique .ovf .ill (by decide), hunique .odd .ill (by decide)⟩

end Sys2Proof.Machine
end

section
/-! PROOFS. Reset and the order of commands (spec/70_reset_and_hazards.md): the reset state (R145), reset against a command at the
same edge and against `INIT` (R146, R147), acceptance (R155), and the run that the canonical sequence makes (R149). -/

namespace Sys2Proof.Machine

/-! ### The events of an edge (R146, R155) -/

section edges
variable {e : Edge}

theorem Edge.event_of_rst (h : e.rst = true) : e.event = some .rst := if_pos h

theorem Edge.accepts_of_rst (h : e.rst = true) : e.accepts = false := by
  rw [Edge.accepts, h, Bool.not_true, Bool.and_false]

theorem Edge.cmdReady_of_readyLegal (h : e.rst = true) (hlegal : e.readyLegal = true) : e.cmdReady = false := by
  rwa [Edge.readyLegal, h, Bool.true_and, Bool.not_eq_true'] at hlegal

theorem Edge.accepts_iff : e.accepts = true ↔ e.cmdValid = true ∧ e.cmdReady = true ∧ e.rst = false := by
  rw [Edge.accepts, Bool.and_eq_true, Bool.and_eq_true, Bool.not_eq_true', and_assoc]

/-- With `rst` low an edge delivers its word, if it accepts one. -/
theorem Edge.event_of_not_rst (h : e.rst = false) : e.event = if e.accepts then some (.cmd e.cmd) else none :=
  if_neg (Bool.eq_false_iff.1 h)

/-- An edge delivers a word exactly when it accepts it. -/
theorem Edge.event_eq_cmd_iff (c : CmdWord) : e.event = some (.cmd c) ↔ e.accepts = true ∧ e.cmd = c := by
  cases hrst : e.rst with
  | true => simp [Edge.event_of_rst hrst, Edge.accepts_of_rst hrst]
  | false => simp [Edge.event_of_not_rst hrst]

end edges

/-! ### Filling registers (R117) -/

/-- The block after writes of the registers with these numbers, in order, where every one of them succeeds. -/
def Block.writeNumbers (b : Block) (ws : List (RegNum × Word)) : Option Block :=
  ws.foldlM (fun b w => b.writeNumber w.1 w.2) b

theorem Block.writeNumbers_cons_eq_some {b b' : Block} {w : RegNum × Word} {ws : List (RegNum × Word)}
    (h : b.writeNumbers (w :: ws) = some b') :
    ∃ b₁, b.writeNumber w.1 w.2 = some b₁ ∧ b₁.writeNumbers ws = some b' :=
  Option.bind_eq_some_iff.1 h

/-- With no fault pending, writes that succeed leave the block so written: none of them closes the gate for the next. -/
theorem State.perform_writes {s : State} {b : Block} {ws : List (RegNum × Word)} (hf : s.block.fault = false)
    (hw : s.block.writeNumbers ws = some b) : s.perform (ws.map fun w => .wr w.1 w.2) = .next (s.setBlock b) := by
  induction ws generalizing s with
  | nil =>
    cases hw
    rfl
  | cons w ws ih =>
    obtain ⟨b₁, hfirst, hrest⟩ := Block.writeNumbers_cons_eq_some hw
    have hf₁ : b₁.fault = false := (Block.writeNumber_keeps hfirst).fault.trans hf
    rw [List.map_cons, State.perform_cons _ (exec_wr_of_some hf hfirst)]
    exact ih (s := s.setBlock b₁) hf₁ hrest

/-! ### The run of the canonical sequence (R149) -/

/-- The values of the seven field registers. -/
structure Header where
  sport : Word
  dport : Word
  len : Word
  sip0 : Word
  sip1 : Word
  dip0 : Word
  dip1 : Word

/-- The fields with their register numbers, in the order in which the canonical sequence writes them. -/
def Header.fields (h : Header) : List (RegNum × Word) :=
  [(3#4, h.sip0), (4#4, h.sip1), (5#4, h.dip0), (6#4, h.dip1), (0#4, h.sport), (1#4, h.dport), (2#4, h.len)]

/-- The block with a new run begun and these fields. -/
def Block.runOf (h : Header) (b : Block) : Block :=
  { b.startRun with
    sport := h.sport, dport := h.dport, len := h.len, sip0 := h.sip0, sip1 := h.sip1, dip0 := h.dip0, dip1 := h.dip1 }

def canonicalSequence (h : Header) (payload : List (Byte × Byte)) : List Instr :=
  .init :: ((h.fields.map fun w => .wr w.1 w.2) ++ .hdr :: (pushPairs payload ++ [.fin]))

/-- The sum of the document (R94). -/
def canonicalSum (h : Header) (payload : List (Byte × Byte)) (b : Block) : Nat :=
  hdrTotal (b.runOf h) + payloadSum payload

theorem Block.runOf_writeNumbers (h : Header) (b : Block) : b.startRun.writeNumbers h.fields = some (b.runOf h) := rfl

theorem hdrTotal_runOf (h : Header) (b : Block) :
    hdrTotal (b.runOf h) = h.sport.toNat + h.dport.toNat + h.len.toNat + h.len.toNat + proto.toNat +
      (packPair h.sip0 b.ctrl.ippad).toNat + (packPair h.dip0 b.ctrl.ippad).toNat +
      (packPair h.sip1 b.ctrl.ippad).toNat + (packPair h.dip1 b.ctrl.ippad).toNat := by
  have hacc : (b.runOf h).acc.toNat = 0 := rfl
  rw [hdrTotal, hacc, Nat.zero_add]
  rfl

section canonical
variable {s : State} {h : Header} {payload : List (Byte × Byte)}

/-- `INIT` and the seven `WR`, from any state at all, then other commands. -/
theorem State.perform_init_fields (is : List Instr) :
    s.perform (.init :: ((h.fields.map fun w => .wr w.1 w.2) ++ is)) = (s.setBlock (s.block.runOf h)).perform is := by
  have hinit : exec .init s = .next (s.setBlock s.block.startRun) := rfl
  rw [State.perform_cons _ hinit]
  exact State.perform_append is
    (State.perform_writes (s := s.setBlock s.block.startRun) rfl (Block.runOf_writeNumbers h s.block))

/-- With no fault pending and an empty packer, `HDR`, the payload bytes and `FIN` deliver the result for `ACC` and all the words
that they add, where the sum fits. -/
theorem State.perform_hdr_payload_fin (hf : s.block.fault = false) (hv : s.block.pkv = false) (hb : s.block.pkb = 0#8)
    (hfit : hdrTotal s.block + payloadSum payload < accLimit s.cfg) :
    s.perform (.hdr :: (pushPairs payload ++ [.fin])) = .next (s.setBlock
      (s.block.setAcc (BitVec.ofNat 32 (hdrTotal s.block + payloadSum payload))).delivered) := by
  have hhdr : hdrTotal s.block < accLimit s.cfg := Nat.lt_of_add_right_lt hfit
  have hheld := toNat_ofNat_of_lt_accLimit hhdr
  have hpush := State.perform_pushPairs (payload := payload)
    (s := s.setBlock (s.block.setAcc (BitVec.ofNat 32 (hdrTotal s.block)))) hf hv hb
    (by rwa [State.setBlock_block, Block.setAcc_acc, hheld])
  rw [State.setBlock_block, Block.setAcc_acc, hheld] at hpush
  rw [State.perform_cons _ (exec_hdr_of_fits hf hhdr), State.perform_append _ hpush]
  exact State.perform_cons [] (exec_fin_of_even (s := s.setBlock
    (s.block.setAcc (BitVec.ofNat 32 (hdrTotal s.block + payloadSum payload)))) hf hv)

/-- From any state at all, the canonical sequence delivers the result for the document's sum, where that fits. -/
theorem State.perform_canonicalSequence (hfit : canonicalSum h payload s.block < accLimit s.cfg) :
    s.perform (canonicalSequence h payload) = .next (s.setBlock
      ((s.block.runOf h).setAcc (BitVec.ofNat 32 (canonicalSum h payload s.block))).delivered) :=
  (State.perform_init_fields _).trans
    (State.perform_hdr_payload_fin (s := s.setBlock (s.block.runOf h)) rfl rfl rfl hfit)

end canonical

/-! ### The result as a number (R107) -/

theorem finResult_toNat_of_le {n : Nat} (c : Ctrl) (h : n ≤ 0xFFFF) :
    (finResult n c).toNat = if c.cplall then 0xFFFF - n else n := by
  cases hc : c.cplall with
  | true => exact (congrArg BitVec.toNat (finResult_of_cplall h hc)).trans (cpl18_toNat_of_le h)
  | false =>
    rw [finResult_of_not_cplall h hc, BitVec.toNat_ofNat]
    exact Nat.mod_eq_of_lt (Nat.lt_succ_of_le h)

theorem finResult_toNat_of_legacy {n : Nat} {c : Ctrl} (h : 0xFFFF < n) (hl : c.foldloop = false) :
    (finResult n c).toNat = 0xFFFF - fold1 n % 65536 := by
  rw [finResult_of_lt h, hl, fold_legacy]
  exact cpl18_toNat _

/-- The loop is two passes: one that does not carry is left alone by another. -/
theorem fold_loop_eq_fold1_fold1 {n : Nat} (hn : n < 2 ^ 32) : fold n true = fold1 (fold1 n) := by
  rcases Nat.lt_or_ge 0xFFFF (fold1 n) with h | h
  · exact (fold_loop_of_lt hn h).trans (fold1_of_carry h (fold1_le hn)).symm
  · exact (fold_loop_of_le h).trans (fold1_of_le h).symm

theorem finResult_toNat_of_loop {n : Nat} {c : Ctrl} (hn : n < 2 ^ 32) (h : 0xFFFF < n) (hl : c.foldloop = true) :
    (finResult n c).toNat = 0xFFFF - fold1 (fold1 n) := by
  rw [finResult_of_lt h, hl, cpl18_toNat_of_le (fold_loop_le hn), fold_loop_eq_fold1_fold1 hn]

/-! ### The obligations -/

/-- Settles O51: the canonical sequence ends in `delivered`, whose `RES` is the result for the sum. -/
theorem canonicalSequenceGivesTheChecksum : Obligations.CanonicalSequenceGivesTheChecksum := by
  intro s sport dport len sip0 sip1 dip0 dip1 payload p total hfit
  have htotal : canonicalSum ⟨sport, dport, len, sip0, sip1, dip0, dip1⟩ payload s.block = total :=
    congrArg (· + payloadSum payload) (hdrTotal_runOf _ _)
  have hrun := State.perform_canonicalSequence (lt_of_eq_of_lt htotal hfit)
  have hheld : (BitVec.ofNat 32 total).toNat = total := toNat_ofNat_of_lt_accLimit hfit
  have hres (c : Ctrl) : (finResult (BitVec.ofNat 32 total).toNat c).toNat = (finResult total c).toNat := by rw [hheld]
  rw [htotal] at hrun
  refine ⟨_, (congrArg s.perform (List.append_assoc _ _ _)).trans hrun, rfl, hheld, fun hle => ?_, fun hlt hl => ?_,
    fun hlt hl => ?_⟩
  · exact (hres _).trans (finResult_toNat_of_le _ hle)
  · exact (hres _).trans (finResult_toNat_of_legacy hlt hl)
  · exact (hres _).trans (finResult_toNat_of_loop (lt_of_lt_of_le hfit (accLimit_le s.cfg)) hlt hl)

/-- Settles O20, by `Block.inv_reset` at the default width. -/
theorem resetMeetsTheInvariant : Obligations.ResetMeetsTheInvariant :=
  Block.inv_reset _

/-- Settles O26: the reset state and its views are closed values. -/
theorem resetStateIsAllZero : Obligations.ResetStateIsAllZero :=
  ⟨rfl, by decide, rfl⟩

/-- Settles O27: `rst` decides the event of an edge, and reset sets the whole block. -/
theorem resetDominates : Obligations.ResetDominates :=
  ⟨fun _ h => ⟨Edge.event_of_rst h, Edge.accepts_of_rst h, Edge.cmdReady_of_readyLegal h⟩, fun _ _ => step_rst⟩

/-- Settles O28: an edge delivers the word that it accepts. -/
theorem commandAcceptedOnHandshake : Obligations.CommandAcceptedOnHandshake := by
  intro e c
  rw [Edge.event_eq_cmd_iff, Edge.accepts_iff, and_assoc, and_assoc]

/-- Settles O29: the zeros are those of the reset block and of `startRun`. -/
theorem initIsResetButForInputs : Obligations.InitIsResetButForInputs :=
  fun _ => ⟨fun _ => step_rst, rfl⟩

end Sys2Proof.Machine
end
